-- ==== Sys2Proof/Word.lean ====
section
/-! DEFINITION. The word types of the block's ports (10_state.md rule R30) and of the host's buffer (20_memory.md rule R51). Every vector is numbered from 0 at its least significant bit (00_scope.md rule R8). -/

namespace Sys2Proof

/-- The command `cmd[3:0] = op[1:0] ‖ fmt[1:0]` (30_encoding.md rule R70). -/
abbrev Cmd := BitVec 4

/-- One BCD digit port; the values 10 to 15 are not digits (10_state.md rule R34). -/
abbrev Nibble := BitVec 4

/-- Three BCD nibbles, most significant digit in the top nibble (30_encoding.md rule R77). -/
abbrev Triad := BitVec 12

/-- A declet, bit 9 first in an encoding (30_encoding.md rule R78). -/
abbrev Declet := BitVec 10

/-- A head, right-aligned on its 18-bit port (10_state.md rule R35). -/
abbrev Head := BitVec 18

/-- One byte of the host's encoding buffer (20_memory.md rule R51). -/
abbrev Byte := BitVec 8

/-- The host's encoding buffer, `buf[0]` first (20_memory.md rule R51). -/
abbrev Buffer := List Byte

end Sys2Proof
end

