-- ==== Sys2Proof/Config.lean ====
section
/-! DEFINITION. What is fixed for the machine: the three format descriptors (00_scope.md rules R5 and R6, 10_state.md rules R24 and R25: constants, not state), the tags, the error kinds, the host's open parameter `onOverflow` (42_host_composition.md rule R191), which is data a host procedure takes as an argument, and the free values of a decoded special value's meaningless fields (91_not_in_source.md N10). -/

namespace Sys2Proof

/-- The three formats; there is no fourth (10_state.md rule R24). -/
inductive Format where
  | decimal32
  | decimal64
  | decimal128
  deriving DecidableEq, Repr

/-- One `DecimalFormat` descriptor record, field by field (10_state.md rule R24), with the derived `HW` and `ND` of 00_scope.md rule R6 beside it. -/
structure Descriptor where
  /-- `formatBitLength`, `N` -/
  bits : Nat
  /-- `formatByteLength`, `NB` -/
  bytes : Nat
  /-- `coefficientDigits`, `DIG` -/
  digits : Nat
  /-- `exponentContinuationBits`, `ECB` -/
  ecb : Nat
  /-- `coefficientContinuationBits`, `CCB` -/
  ccb : Nat
  /-- `eLimit`, `ELIMIT` -/
  elimit : Nat
  /-- `bias`, `BIAS` -/
  bias : Nat
  /-- `HW`, head width -/
  headWidth : Nat
  /-- `ND`, number of declets -/
  declets : Nat
  deriving DecidableEq, Repr

/-- The constant table (00_scope.md rules R5 and R6): wired constants that no event changes (70_reset_and_hazards.md rule R241). -/
def Format.descriptor : Format → Descriptor
  | .decimal32 =>
    { bits := 32, bytes := 4, digits := 7, ecb := 6, ccb := 20, elimit := 191, bias := 101,
      headWidth := 12, declets := 2 }
  | .decimal64 =>
    { bits := 64, bytes := 8, digits := 16, ecb := 8, ccb := 50, elimit := 767, bias := 398,
      headWidth := 14, declets := 5 }
  | .decimal128 =>
    { bits := 128, bytes := 16, digits := 34, ecb := 12, ccb := 110, elimit := 12287, bias := 6176,
      headWidth := 18, declets := 11 }

/-- `N(F)` -/
abbrev Format.bits (F : Format) : Nat := F.descriptor.bits
/-- `NB(F)` -/
abbrev Format.bytes (F : Format) : Nat := F.descriptor.bytes
/-- `DIG(F)` -/
abbrev Format.digits (F : Format) : Nat := F.descriptor.digits
/-- `ECB(F)` -/
abbrev Format.ecb (F : Format) : Nat := F.descriptor.ecb
/-- `CCB(F)` -/
abbrev Format.ccb (F : Format) : Nat := F.descriptor.ccb
/-- `ELIMIT(F)` -/
abbrev Format.elimit (F : Format) : Nat := F.descriptor.elimit
/-- `BIAS(F)` -/
abbrev Format.bias (F : Format) : Nat := F.descriptor.bias
/-- `HW(F)` -/
abbrev Format.headWidth (F : Format) : Nat := F.descriptor.headWidth
/-- `ND(F)` -/
abbrev Format.declets (F : Format) : Nat := F.descriptor.declets

/-- The tag of `CF.PACK` and `CF.UNPACK` (10_state.md rule R32). -/
inductive Tag where
  | finite
  | inf
  | qnan
  | snan
  deriving DecidableEq, Repr

/-- The three errors of the block (60_exceptions.md rule R210), with the record the typed view gives each (rule R213). -/
inductive BlockError where
  /-- A finite biased exponent outside `[0, ELIMIT]` (rule R215): the format and the exponent. -/
  | overflow (F : Format) (be : Int)
  /-- A nibble of 10 to 15 where a digit is read (rule R216). -/
  | invalidDigit
  /-- A combination-field command with `fmt = 11` (rule R217). -/
  | invalidFormat
  deriving DecidableEq, Repr

/-- The host's `onOverflow` choice (42_host_composition.md rule R191). -/
inductive OnOverflow where
  | error
  | saturateToInfinity
  deriving DecidableEq, Repr

/-- The host parameters the spec leaves OPEN (92_eei_decisions.md D17, 91_not_in_source.md N14): the policy, and whether saturation also covers a negative biased exponent. Arguments, so a statement holds for every reading (log 8). -/
structure HostPolicy where
  onOverflow : OnOverflow
  saturatesNegative : Bool
  deriving DecidableEq, Repr

/-- FREE VALUE (log 7): the `coefficient` of a decoded infinity, which the spec does not state (91_not_in_source.md N10), by its format and sign bit. The bits of the buffer that decode ignores take no part (42_host_composition.md rule R192, 93_implementation_defined.md U1, U6). -/
opaque Config.openCoefficient : Format → BitVec 1 → Nat

/-- FREE VALUE (log 7): the `exponent` of a decoded infinity or NaN, which the spec does not state (91_not_in_source.md N10), by its format, tag, sign bit and payload (0 of an infinity). The bits of the buffer that decode ignores take no part (93_implementation_defined.md U1, U2, U6, U7). -/
opaque Config.openExponent : Format → Tag → BitVec 1 → Nat → Int

end Sys2Proof
end

