-- ==== Sys2Proof/Syntax.lean ====
section
/-! DEFINITION. The instructions: one constructor for each row of spec/opcode_table.json (30_encoding.md rule R72). The instruction word is the 4-bit command; the operands are input ports, not fields of the word. -/

namespace Sys2Proof

/-- The commands. `fmt` of a DPD command is carried though the operation ignores it (30_encoding.md rule R71), so that no bit of the command is lost. -/
inductive Instr where
  /-- `DPD.ENC`, `cmd = 00ff` -/
  | dpdEnc (fmt : BitVec 2)
  /-- `DPD.DEC`, `cmd = 01ff` -/
  | dpdDec (fmt : BitVec 2)
  /-- `CF.PACK.32`, `cmd = 1000` -/
  | cfPack32
  /-- `CF.PACK.64`, `cmd = 1001` -/
  | cfPack64
  /-- `CF.PACK.128`, `cmd = 1010` -/
  | cfPack128
  /-- `CF.UNPACK.32`, `cmd = 1100` -/
  | cfUnpack32
  /-- `CF.UNPACK.64`, `cmd = 1101` -/
  | cfUnpack64
  /-- `CF.UNPACK.128`, `cmd = 1110` -/
  | cfUnpack128
  /-- The reserved command `1011` (30_encoding.md rule R73) -/
  | reservedPack
  /-- The reserved command `1111` (30_encoding.md rule R73) -/
  | reservedUnpack
  deriving DecidableEq, Repr

end Sys2Proof
end

