-- ==== Sys2Proof/WellFormed.lean ====
section
/-! DEFINITION. The checks on written data: a command word, an instruction, a format descriptor. -/

namespace Sys2Proof

/-- A number is a command word when it fits the 4-bit `cmd` port: there is one command length (30_encoding.md rule R70). -/
abbrev CommandWord (v : Nat) : Prop := v < 16

/-- An instruction is well formed when its format field is one of the four values of `cmd[1:0]`. `BitVec 2` cannot hold another, so every instruction is (Laws/Decode.lean, `Instr.wellFormed_all`): the ill-formed terms of the command encoding are numbers that are no `CommandWord`. -/
abbrev Instr.WellFormed : Instr → Prop
  | .dpdEnc fmt => fmt.toNat < 4
  | .dpdDec fmt => fmt.toNat < 4
  | .cfPack32 | .cfPack64 | .cfPack128 => True
  | .cfUnpack32 | .cfUnpack64 | .cfUnpack128 => True
  | .reservedPack | .reservedUnpack => True

/-- `1 + 5 + ECB + CCB = N` (00_scope.md rule R6). -/
abbrev Descriptor.FieldsFillTheWord (d : Descriptor) : Prop := 1 + 5 + d.ecb + d.ccb = d.bits

/-- `NB = N / 8`, whole bytes (00_scope.md rule R5). -/
abbrev Descriptor.WholeBytes (d : Descriptor) : Prop := 8 * d.bytes = d.bits

/-- `3 * 2^ECB - 1 = ELIMIT` (10_state.md rule R25, 00_scope.md rule R6). -/
abbrev Descriptor.ExponentLimit (d : Descriptor) : Prop := d.elimit + 1 = 3 * 2 ^ d.ecb

/-- `ND = (DIG - 1) / 3` exactly (00_scope.md rule R6). -/
abbrev Descriptor.TriadsExact (d : Descriptor) : Prop := 3 * d.declets + 1 = d.digits

/-- `10 * ND = CCB` (00_scope.md rule R6). -/
abbrev Descriptor.DecletsFill (d : Descriptor) : Prop := 10 * d.declets = d.ccb

/-- `HW = 1 + 5 + ECB` (00_scope.md rule R6). -/
abbrev Descriptor.HeadFields (d : Descriptor) : Prop := d.headWidth = 1 + 5 + d.ecb

/-- All the checks of 00_scope.md rule R6 together. -/
abbrev Descriptor.WellFormed (d : Descriptor) : Prop :=
  d.FieldsFillTheWord ∧ d.WholeBytes ∧ d.ExponentLimit ∧ d.TriadsExact ∧ d.DecletsFill ∧ d.HeadFields

end Sys2Proof
end

