-- ==== Sys2Proof/Decode.lean ====
section
/-! DEFINITION. The command decoder and encoder (30_encoding.md rules R70 to R73): total on the 16 commands, and rejecting by name a number that is no 4-bit command. -/

namespace Sys2Proof

/-- Why a number is not decoded: it does not fit the 4-bit command port. -/
inductive DecodeError where
  | notACommand (value : Nat)
  deriving DecidableEq, Repr

/-- The complete command map (30_encoding.md rule R72), on `op = cmd[3:2]` and `fmt = cmd[1:0]`. Every one of the 16 values has its row; the two reserved ones decode to constructors of their own (rule R73). -/
def decode (cmd : Cmd) : Instr :=
  match cmd.getLsbD 3, cmd.getLsbD 2, cmd.getLsbD 1, cmd.getLsbD 0 with
  | false, false, _, _ => .dpdEnc (cmd.extractLsb' 0 2)
  | false, true, _, _ => .dpdDec (cmd.extractLsb' 0 2)
  | true, false, false, false => .cfPack32
  | true, false, false, true => .cfPack64
  | true, false, true, false => .cfPack128
  | true, false, true, true => .reservedPack
  | true, true, false, false => .cfUnpack32
  | true, true, false, true => .cfUnpack64
  | true, true, true, false => .cfUnpack128
  | true, true, true, true => .reservedUnpack

/-- The command of a number, where it is one (log 6). -/
def commandOf (v : Nat) : Option Cmd :=
  if CommandWord v then some (BitVec.ofNat 4 v) else none

/-- The instruction a number stands for, or the name of what is wrong with it. -/
def decodeNat (v : Nat) : Except DecodeError Instr :=
  match commandOf v with
  | some cmd => .ok (decode cmd)
  | none => .error (.notACommand v)

/-- The low `nbits` bits of `w`, as a number: the bits above `nbits` are 0. -/
def tableWord (nbits w : Nat) : Nat := w % 2 ^ nbits

/-- What the decoder reads from the table's word (the host's name). A command is 4 bits, so a word with a bit set above bit 3 is no command (log 6). -/
def decodeTableWord (nbits w : Nat) : Option Instr :=
  match decodeNat (tableWord nbits w) with
  | .ok i => some i
  | .error _ => none

/-- The command of an instruction, `op ‖ fmt` (30_encoding.md rules R70, R71). -/
def encode : Instr → Cmd
  | .dpdEnc fmt => 0b00#2 ++ fmt
  | .dpdDec fmt => 0b01#2 ++ fmt
  | .cfPack32 => 0b10#2 ++ 0b00#2
  | .cfPack64 => 0b10#2 ++ 0b01#2
  | .cfPack128 => 0b10#2 ++ 0b10#2
  | .reservedPack => 0b10#2 ++ 0b11#2
  | .cfUnpack32 => 0b11#2 ++ 0b00#2
  | .cfUnpack64 => 0b11#2 ++ 0b01#2
  | .cfUnpack128 => 0b11#2 ++ 0b10#2
  | .reservedUnpack => 0b11#2 ++ 0b11#2

/-- A row of spec/opcode_table.json: a command `c` is the row's when `c &&& mask = pattern`. -/
structure OpcodeRow where
  mnemonic : String
  pattern : Cmd
  mask : Cmd
  deriving DecidableEq, Repr

/-- The ten rows, as the table has them. -/
def opcodeTable : List OpcodeRow :=
  [ { mnemonic := "DPD.ENC", pattern := 0x0#4, mask := 0xC#4 },
    { mnemonic := "DPD.DEC", pattern := 0x4#4, mask := 0xC#4 },
    { mnemonic := "CF.PACK.32", pattern := 0x8#4, mask := 0xF#4 },
    { mnemonic := "CF.PACK.64", pattern := 0x9#4, mask := 0xF#4 },
    { mnemonic := "CF.PACK.128", pattern := 0xA#4, mask := 0xF#4 },
    { mnemonic := "CF.UNPACK.32", pattern := 0xC#4, mask := 0xF#4 },
    { mnemonic := "CF.UNPACK.64", pattern := 0xD#4, mask := 0xF#4 },
    { mnemonic := "CF.UNPACK.128", pattern := 0xE#4, mask := 0xF#4 },
    { mnemonic := "RESERVED.PACK", pattern := 0xB#4, mask := 0xF#4 },
    { mnemonic := "RESERVED.UNPACK", pattern := 0xF#4, mask := 0xF#4 } ]

/-- Whether a command lies in a row. -/
def OpcodeRow.covers (r : OpcodeRow) (cmd : Cmd) : Bool := cmd &&& r.mask == r.pattern

/-- The mnemonic of an instruction, letter for letter. -/
def Instr.mnemonic : Instr → String
  | .dpdEnc _ => "DPD.ENC"
  | .dpdDec _ => "DPD.DEC"
  | .cfPack32 => "CF.PACK.32"
  | .cfPack64 => "CF.PACK.64"
  | .cfPack128 => "CF.PACK.128"
  | .cfUnpack32 => "CF.UNPACK.32"
  | .cfUnpack64 => "CF.UNPACK.64"
  | .cfUnpack128 => "CF.UNPACK.128"
  | .reservedPack => "RESERVED.PACK"
  | .reservedUnpack => "RESERVED.UNPACK"

/-- `CF.PACK.<w>` of a format. -/
def packInstr : Format → Instr
  | .decimal32 => .cfPack32
  | .decimal64 => .cfPack64
  | .decimal128 => .cfPack128

/-- `CF.UNPACK.<w>` of a format. -/
def unpackInstr : Format → Instr
  | .decimal32 => .cfUnpack32
  | .decimal64 => .cfUnpack64
  | .decimal128 => .cfUnpack128

end Sys2Proof
end

