-- ==== Sys2Proof/Machine/State.lean ====
section
/-! DEFINITION. The state: the values on the block's ports (10_state.md rule R30). The block itself has no mutable state (rules R20 to R23); a transaction is one evaluation of the input ports into the output ports (00_scope.md rule R10, log 1). -/

namespace Sys2Proof.Machine

/-- The names of the input ports (10_state.md rule R30). -/
inductive InPort where
  | cmd
  | bcd
  | declet
  | sign
  | tag
  | bexp
  | lead
  | head
  deriving DecidableEq, Repr

/-- The input ports (10_state.md rule R30). `none` is a port that is not driven to a definite 0 or 1 on every bit (70_reset_and_hazards.md rule R242). -/
structure Inputs where
  /-- `cmd` -/
  cmd : Option Cmd
  /-- `bcd_i` -/
  bcd : Option Triad
  /-- `declet_i` -/
  declet : Option Declet
  /-- `sign_i`: 0 positive, 1 negative (rule R31) -/
  sign : Option (BitVec 1)
  /-- `tag_i` (rule R32) -/
  tag : Option (BitVec 2)
  /-- `bexp_i`, two's complement (rule R33) -/
  bexp : Option (BitVec 15)
  /-- `lead_i` (rule R34) -/
  lead : Option Nibble
  /-- `head_i` (rule R35) -/
  head : Option Head
  deriving DecidableEq, Repr

/-- The output ports (10_state.md rule R30); each is always driven (rule R36). -/
structure Outputs where
  /-- `declet_o` -/
  declet : Declet
  /-- `bcd_o` -/
  bcd : Triad
  /-- `head_o` -/
  head : Head
  /-- `sign_o` -/
  sign : BitVec 1
  /-- `tag_o` -/
  tag : BitVec 2
  /-- `bexp_o`, unsigned -/
  bexp : BitVec 14
  /-- `lead_o` -/
  lead : Nibble
  /-- `err_o` (60_exceptions.md rule R212) -/
  err : BitVec 2
  deriving DecidableEq, Repr

/-- The input ports the next step evaluates, and the output ports the last step drove (log 1). -/
structure State where
  inp : Inputs
  out : Outputs
  deriving DecidableEq, Repr

/-- Reasons the machine stops with a fault: NONE. A faulting transaction of the spec is a next state that carries its code on `err_o` (60_exceptions.md rules R210, R214; log 3), so no instruction raises one. -/
inductive Fault where
  deriving DecidableEq, Repr

/-- Reasons a step has no meaning. -/
inductive Refusal where
  /-- An instruction that has no meaning yet, raised by an arm of `exec` alone; safe. No arm raises it. -/
  | notModelled (mnemonic : String)
  /-- A port the transaction reads is not driven on every bit: "a model must treat it as refused, not as some value" (70_reset_and_hazards.md rule R242). Raised by `step` for `cmd` and by the meanings for their operand ports; safe. -/
  | undriven (port : InPort)
  deriving DecidableEq, Repr

/-- Every output port 0. -/
def Outputs.zero : Outputs :=
  { declet := 0, bcd := 0, head := 0, sign := 0, tag := 0, bexp := 0, lead := 0, err := 0 }

/-- Every input port driven to 0. -/
def Inputs.zero : Inputs :=
  { cmd := some 0, bcd := some 0, declet := some 0, sign := some 0, tag := some 0,
    bexp := some 0, lead := some 0, head := some 0 }

/-- No input port driven. -/
def Inputs.undriven : Inputs :=
  { cmd := none, bcd := none, declet := none, sign := none, tag := none,
    bexp := none, lead := none, head := none }

/-- DESIGN CHOICE, unsafe (log 2): there is no reset and no reset value (10_state.md rule R38); every input port is driven to 0, and the outputs are what the block drives for those inputs. -/
def State.reset : State := { inp := Inputs.zero, out := Outputs.zero }

end Sys2Proof.Machine
end

