-- ==== Sys2Proof/Machine/Flags.lean ====
section
/-! DEFINITION. The only status the block reports: the error code on `err_o` and the conditions that raise it, in priority order (60_exceptions.md rules R212 to R220). There are no flags or condition codes (10_state.md rule R23). -/

namespace Sys2Proof.Machine

/-- The code of an error on `err_o`; 0 is success (60_exceptions.md rule R212). -/
def errCode : BlockError → BitVec 2
  | .overflow _ _ => 1
  | .invalidDigit => 2
  | .invalidFormat => 3

/-- A nibble that is a decimal digit (10_state.md rule R34). -/
def isDigit (n : Nibble) : Bool := decide (n.toNat ≤ 9)

/-- The `Overflow` condition of a finite operand: both bounds (60_exceptions.md rule R215). -/
def exponentOutOfRange (F : Format) (be : Int) : Bool := decide (be < 0 ∨ (F.elimit : Int) < be)

/-- The error of a finite `CF.PACK` operand in a legal format, if any: `Overflow` before `InvalidDigit` (41_combination_field.md rule R146, 60_exceptions.md rule R220). -/
def packError (F : Format) (be : Int) (lead : Nibble) : Option BlockError :=
  if exponentOutOfRange F be then some (.overflow F be)
  else if isDigit lead then none
  else some .invalidDigit

end Sys2Proof.Machine
end

