-- ==== Sys2Proof/Machine/Ops.lean ====
section
/-! DEFINITION. The operations on the ports that the meanings share: reading a driven input port, driving the outputs, and raising an error. There is no register and no memory to operate on (10_state.md rule R20, 20_memory.md rule R50). -/

namespace Sys2Proof.Machine

/-- What a step answers. -/
abbrev Answer := Host.Outcome State Fault Refusal

/-- The host puts `i` on the input ports (00_scope.md rule R10); the outputs are not yet the answer to it. -/
def State.present (s : State) (i : Inputs) : State := { s with inp := i }

/-- Drive every output port (10_state.md rule R36); the inputs stand. -/
def State.drive (s : State) (o : Outputs) : State := { s with out := o }

/-- TAKING AN ERROR, the block's only exception: `err_o` carries the code and every data output is 0; nothing is saved, no mode changes, no control is transferred (60_exceptions.md rules R214, R221). There is no return from it: the next transaction is evaluated from its own inputs (rule R222). -/
def State.raise (s : State) (e : BlockError) : State :=
  s.drive { Outputs.zero with err := errCode e }

/-- The end of a transaction: its data outputs with `err_o = 0`, or its error (60_exceptions.md rule R210). -/
def State.answer (s : State) : Except BlockError Outputs → State
  | .ok o => s.drive o
  | .error e => s.raise e

/-- Read a port the transaction needs: its value, or a refusal by the port's name where it is not driven on every bit (70_reset_and_hazards.md rule R242; log 4). -/
def readPort {n : Nat} (p : InPort) (v : Option (BitVec n)) (k : BitVec n → Answer) : Answer :=
  match v with
  | some x => k x
  | none => .refused (.undriven p)

end Sys2Proof.Machine
end

