-- ==== Sys2Proof/Machine/Operands.lean ====
section
/-! DEFINITION. The operand forms: the nibbles of a triad, the tag, the signed exponent, the fields of a head, and which ports a transaction reads. -/

namespace Sys2Proof.Machine

/-- `bcd[11:8]`, the most significant digit (30_encoding.md rule R77). -/
def digit2 (t : Triad) : Nibble := t.extractLsb' 8 4

/-- `bcd[7:4]` (30_encoding.md rule R77). -/
def digit1 (t : Triad) : Nibble := t.extractLsb' 4 4

/-- `bcd[3:0]`, the least significant digit (30_encoding.md rule R77). -/
def digit0 (t : Triad) : Nibble := t.extractLsb' 0 4

/-- `d2 ‖ d1 ‖ d0` (30_encoding.md rule R77). -/
def triadOf (d2 d1 d0 : Nibble) : Triad := d2 ++ d1 ++ d0

/-- All three nibbles are digits (60_exceptions.md rule R216). -/
def legalTriad (t : Triad) : Bool := isDigit (digit2 t) && isDigit (digit1 t) && isDigit (digit0 t)

/-- `100*d2 + 10*d1 + d0` (30_encoding.md rule R77). -/
def triadValue (t : Triad) : Nat := 100 * (digit2 t).toNat + 10 * (digit1 t).toNat + (digit0 t).toNat

/-- Four bits, most significant first. -/
def nibbleOfBits (b3 b2 b1 b0 : Bool) : Nibble := BitVec.ofBoolListBE [b3, b2, b1, b0]

/-- The ten bits `p q r s t u v w x y` of a declet, bit 9 first (30_encoding.md rule R78). -/
def decletOfBits (p q r s t u v w x y : Bool) : Declet :=
  BitVec.ofBoolListBE [p, q, r, s, t, u, v, w, x, y]

/-- The tag a port value stands for (10_state.md rule R32). -/
def tagOfBits (b : BitVec 2) : Tag :=
  match b.getLsbD 1, b.getLsbD 0 with
  | false, false => .finite
  | false, true => .inf
  | true, false => .qnan
  | true, true => .snan

/-- The port value of a tag (10_state.md rule R32). -/
def bitsOfTag : Tag → BitVec 2
  | .finite => 0b00#2
  | .inf => 0b01#2
  | .qnan => 0b10#2
  | .snan => 0b11#2

/-- `signed(in.bexp_i)`, -16384 to 16383 (10_state.md rule R33). -/
def signedExponent (b : BitVec 15) : Int := b.toInt

/-- `head = sign ‖ comb ‖ cont`, zero-extended to the port (30_encoding.md rule R80, 10_state.md rule R35). -/
def joinHead (F : Format) (sign : BitVec 1) (comb : BitVec 5) (cont : BitVec F.ecb) : Head :=
  (sign ++ comb ++ cont).setWidth 18

/-- `head[HW-1]` (10_state.md rule R35). -/
def headSign (F : Format) (h : Head) : BitVec 1 := h.extractLsb' (F.headWidth - 1) 1

/-- `head[HW-2:HW-6]` (10_state.md rule R35). -/
def headComb (F : Format) (h : Head) : BitVec 5 := h.extractLsb' (F.headWidth - 6) 5

/-- `head[ECB-1:0]` (10_state.md rule R35). -/
def headCont (F : Format) (h : Head) : BitVec F.ecb := h.extractLsb' 0 F.ecb

/-- A head on the 18-bit port without the spare bits `[17:HW]`, which are ignored on input (10_state.md rule R35). -/
def headOnly (F : Format) (h : Head) : Head := BitVec.ofNat 18 (h.toNat % 2 ^ F.headWidth)

/-- The operand ports a transaction reads (30_encoding.md rule R70). `CF.PACK` reads `bexp_i` and `lead_i` for the finite tag only ("it is not read for a special tag", 95_test_vectors.md program 3), and a reserved command reads `cmd` alone (log 5). -/
def portsRead (i : Instr) (inp : Inputs) : List InPort :=
  match i with
  | .dpdEnc _ => [.bcd]
  | .dpdDec _ => [.declet]
  | .cfPack32 | .cfPack64 | .cfPack128 =>
    if inp.tag.map tagOfBits = some .finite then [.sign, .tag, .bexp, .lead] else [.sign, .tag]
  | .cfUnpack32 | .cfUnpack64 | .cfUnpack128 => [.head]
  | .reservedPack | .reservedUnpack => []

/-- Whether a port is driven to a definite value on every bit (70_reset_and_hazards.md rule R242). -/
def Inputs.driven (inp : Inputs) : InPort → Bool
  | .cmd => inp.cmd.isSome
  | .bcd => inp.bcd.isSome
  | .declet => inp.declet.isSome
  | .sign => inp.sign.isSome
  | .tag => inp.tag.isSome
  | .bexp => inp.bexp.isSome
  | .lead => inp.lead.isSome
  | .head => inp.head.isSome

end Sys2Proof.Machine
end

