-- ==== Sys2Proof/Machine/CombinationField.lean ====
section
/-! DEFINITION. The combination-field family: the packer and the unpacker over the constants of the format (41_combination_field.md rules R142, R150), the meanings of the six commands, and of the two reserved ones (30_encoding.md rule R73). -/

namespace Sys2Proof.Machine

/-- The combination field of a finite value: `hi2 ‖ lead[2:0]` for a digit 0 to 7, `11 ‖ hi2 ‖ lead[0]` for 8 or 9 (41_combination_field.md rules R141, R142). -/
def finiteComb (hi2 : BitVec 2) (lead : Nibble) : BitVec 5 :=
  if lead.toNat ≤ 7 then hi2 ++ lead.extractLsb' 0 3
  else 0b11#2 ++ hi2 ++ lead.extractLsb' 0 1

/-- The head of a finite value, or its error: the exponent is checked before the digit is looked at (41_combination_field.md rules R142, R146). -/
def packFinite (F : Format) (sign : BitVec 1) (bexp : BitVec 15) (lead : Nibble) :
    Except BlockError Head :=
  let be := signedExponent bexp
  match packError F be lead with
  | some e => .error e
  | none =>
    let hi2 := BitVec.ofNat 2 (be.toNat / 2 ^ F.ecb)
    let lo := BitVec.ofNat F.ecb (be.toNat % 2 ^ F.ecb)
    .ok (joinHead F sign (finiteComb hi2 lead) lo)

/-- The combination field of a special tag (30_encoding.md rule R81). -/
def specialComb : Tag → BitVec 5
  | .inf => 0b11110#5
  | _ => 0b11111#5

/-- The exponent continuation of a special tag: `2^(E-1)` for a signaling NaN, else 0 (41_combination_field.md rules R141, R142). -/
def specialCont (F : Format) : Tag → BitVec F.ecb
  | .snan => BitVec.ofNat F.ecb (2 ^ (F.ecb - 1))
  | _ => BitVec.ofNat F.ecb 0

/-- The head of an infinity or a NaN; neither exponent nor digit takes part (41_combination_field.md rule R142). -/
def packSpecial (F : Format) (sign : BitVec 1) (tag : Tag) : Head :=
  joinHead F sign (specialComb tag) (specialCont F tag)

/-- `CF.PACK.<w>` on its operands (41_combination_field.md rule R142). -/
def packHead (F : Format) (sign : BitVec 1) (tag : Tag) (bexp : BitVec 15) (lead : Nibble) :
    Except BlockError Head :=
  match tag with
  | .finite => packFinite F sign bexp lead
  | .inf => .ok (packSpecial F sign .inf)
  | .qnan => .ok (packSpecial F sign .qnan)
  | .snan => .ok (packSpecial F sign .snan)

/-- What `CF.UNPACK` reports (41_combination_field.md rule R150). -/
structure Unpacked where
  sign : BitVec 1
  tag : Tag
  bexp : Nat
  lead : Nibble
  deriving DecidableEq, Repr

/-- `bexp = hi2 * 2^ECB + cont` (30_encoding.md rule R83). -/
def assembleExponent (F : Format) (hi2 : BitVec 2) (cont : BitVec F.ecb) : Nat :=
  hi2.toNat * 2 ^ F.ecb + cont.toNat

/-- `CF.UNPACK.<w>` on its operand: total over all heads; the spare bits of the port are ignored (41_combination_field.md rule R150). -/
def unpackHead (F : Format) (h : Head) : Unpacked :=
  let sign := headSign F h
  let comb := headComb F h
  let cont := headCont F h
  if comb.extractLsb' 3 2 ≠ 0b11#2 then
    { sign := sign, tag := .finite, bexp := assembleExponent F (comb.extractLsb' 3 2) cont,
      lead := 0b0#1 ++ comb.extractLsb' 0 3 }
  else if comb.extractLsb' 1 2 ≠ 0b11#2 then
    { sign := sign, tag := .finite, bexp := assembleExponent F (comb.extractLsb' 1 2) cont,
      lead := 0b100#3 ++ comb.extractLsb' 0 1 }
  else if comb.getLsbD 0 = false then
    { sign := sign, tag := .inf, bexp := 0, lead := 0 }
  else if cont.getLsbD (F.ecb - 1) = false then
    { sign := sign, tag := .qnan, bexp := 0, lead := 0 }
  else
    { sign := sign, tag := .snan, bexp := 0, lead := 0 }

/-- The output ports of an unpacked head, `bexp` zero-extended to 14 bits (41_combination_field.md rule R150). -/
def Unpacked.outputs (u : Unpacked) : Outputs :=
  { Outputs.zero with
    sign := u.sign, tag := bitsOfTag u.tag, bexp := BitVec.ofNat 14 u.bexp, lead := u.lead }

/-- The output ports of a packed head (41_combination_field.md rule R142). -/
def headOutputs (h : Head) : Outputs := { Outputs.zero with head := h }

/-- `CF.PACK.<w>` on the ports. `bexp_i` and `lead_i` are read for the finite tag only (41_combination_field.md rule R142; log 5). -/
def packPorts (F : Format) (s : State) : Answer :=
  readPort .sign s.inp.sign fun sign =>
    readPort .tag s.inp.tag fun tag =>
      match tagOfBits tag with
      | .finite =>
        readPort .bexp s.inp.bexp fun bexp =>
          readPort .lead s.inp.lead fun lead =>
            .next (s.answer ((packFinite F sign bexp lead).map headOutputs))
      | .inf => .next (s.answer (.ok (headOutputs (packSpecial F sign .inf))))
      | .qnan => .next (s.answer (.ok (headOutputs (packSpecial F sign .qnan))))
      | .snan => .next (s.answer (.ok (headOutputs (packSpecial F sign .snan))))

/-- `CF.UNPACK.<w>` on the ports (41_combination_field.md rule R150). -/
def unpackPorts (F : Format) (s : State) : Answer :=
  readPort .head s.inp.head fun h => .next (s.answer (.ok (unpackHead F h).outputs))

/-- `CF.PACK.32` (41_combination_field.md rule R143). -/
def execCfPack32 (s : State) : Answer := packPorts .decimal32 s

/-- `CF.PACK.64` (41_combination_field.md rule R144). -/
def execCfPack64 (s : State) : Answer := packPorts .decimal64 s

/-- `CF.PACK.128` (41_combination_field.md rule R145). -/
def execCfPack128 (s : State) : Answer := packPorts .decimal128 s

/-- `CF.UNPACK.32` (41_combination_field.md rule R153). -/
def execCfUnpack32 (s : State) : Answer := unpackPorts .decimal32 s

/-- `CF.UNPACK.64` (41_combination_field.md rule R154). -/
def execCfUnpack64 (s : State) : Answer := unpackPorts .decimal64 s

/-- `CF.UNPACK.128` (41_combination_field.md rule R155). -/
def execCfUnpack128 (s : State) : Answer := unpackPorts .decimal128 s

/-- Command `1011`: raises `InvalidFormat`, whatever the operand ports hold (30_encoding.md rule R73, 60_exceptions.md rules R217, R220). -/
def execReservedPack (s : State) : Answer := .next (s.answer (.error .invalidFormat))

/-- Command `1111`: raises `InvalidFormat`, whatever the operand port holds (30_encoding.md rule R73, 60_exceptions.md rules R217, R220). -/
def execReservedUnpack (s : State) : Answer := .next (s.answer (.error .invalidFormat))

end Sys2Proof.Machine
end

