-- ==== Sys2Proof/Machine/Dpd.lean ====
section
/-! DEFINITION. The DPD family: the two tables (40_dpd_codec.md rules R111, R114) and the meanings of `DPD.ENC` and `DPD.DEC` (rules R112, R115). -/

namespace Sys2Proof.Machine

/-- The encoding table, row by row on `(a, e, i)` (40_dpd_codec.md rule R111). Meaningful for legal triads only. -/
def dpdTable (bcd : Triad) : Declet :=
  let a := bcd.getLsbD 11
  let b := bcd.getLsbD 10
  let c := bcd.getLsbD 9
  let d := bcd.getLsbD 8
  let e := bcd.getLsbD 7
  let f := bcd.getLsbD 6
  let g := bcd.getLsbD 5
  let h := bcd.getLsbD 4
  let i := bcd.getLsbD 3
  let j := bcd.getLsbD 2
  let k := bcd.getLsbD 1
  let m := bcd.getLsbD 0
  match a, e, i with
  | false, false, false => decletOfBits b c d f g h false j k m
  | false, false, true => decletOfBits b c d f g h true false false m
  | false, true, false => decletOfBits b c d j k h true false true m
  | true, false, false => decletOfBits j k d f g h true true false m
  | true, true, false => decletOfBits j k d false false h true true true m
  | true, false, true => decletOfBits f g d false true h true true true m
  | false, true, true => decletOfBits b c d true false h true true true m
  | true, true, true => decletOfBits false false d true true h true true true m

/-- `DPD.ENC` on its operand: `InvalidDigit` is checked before anything else (40_dpd_codec.md rule R112). -/
def dpdEncode (bcd : Triad) : Except BlockError Declet :=
  if legalTriad bcd then .ok (dpdTable bcd) else .error .invalidDigit

/-- The decoding table, row by row on `v`, then `w x`, then `s t` (40_dpd_codec.md rules R114, R115; never on `p q r`, 30_encoding.md rule R79, 90_conflicts.md C1). Total; `p` and `q` are ignored in the last row. -/
def dpdDecode (declet : Declet) : Triad :=
  let p := declet.getLsbD 9
  let q := declet.getLsbD 8
  let r := declet.getLsbD 7
  let s := declet.getLsbD 6
  let t := declet.getLsbD 5
  let u := declet.getLsbD 4
  let v := declet.getLsbD 3
  let w := declet.getLsbD 2
  let x := declet.getLsbD 1
  let y := declet.getLsbD 0
  let small (b2 b1 b0 : Bool) : Nibble := nibbleOfBits false b2 b1 b0
  let large (b0 : Bool) : Nibble := nibbleOfBits true false false b0
  match v, w, x, s, t with
  | false, _, _, _, _ => triadOf (small p q r) (small s t u) (small w x y)
  | true, false, false, _, _ => triadOf (small p q r) (small s t u) (large y)
  | true, false, true, _, _ => triadOf (small p q r) (large u) (small s t y)
  | true, true, false, _, _ => triadOf (large r) (small s t u) (small p q y)
  | true, true, true, false, false => triadOf (large r) (large u) (small p q y)
  | true, true, true, false, true => triadOf (large r) (small p q u) (large y)
  | true, true, true, true, false => triadOf (small p q r) (large u) (large y)
  | true, true, true, true, true => triadOf (large r) (large u) (large y)

/-- The canonical declets are all but those with `declet[3:1] = 111`, `declet[6:5] = 11`, `declet[9:8] ≠ 00` (40_dpd_codec.md rule R118). -/
def canonicalDeclet (w : Declet) : Bool :=
  !(w.extractLsb' 1 3 == 0b111#3 && w.extractLsb' 5 2 == 0b11#2 && w.extractLsb' 8 2 != 0b00#2)

/-- `DPD.ENC d2, d1, d0 -> declet` (40_dpd_codec.md rule R112); `fmt` is ignored (30_encoding.md rule R71). -/
def execDpdEnc (_fmt : BitVec 2) (s : State) : Answer :=
  readPort .bcd s.inp.bcd fun bcd =>
    .next (s.answer ((dpdEncode bcd).map fun w => { Outputs.zero with declet := w }))

/-- `DPD.DEC declet -> d2, d1, d0` (40_dpd_codec.md rule R115); `fmt` is ignored (30_encoding.md rule R71). -/
def execDpdDec (_fmt : BitVec 2) (s : State) : Answer :=
  readPort .declet s.inp.declet fun declet =>
    .next (s.answer (.ok { Outputs.zero with bcd := dpdDecode declet }))

end Sys2Proof.Machine
end

