-- ==== Sys2Proof/Machine/Dispatch.lean ====
section
/-! DEFINITION. One arm per instruction, each a direct call of its meaning. -/

namespace Sys2Proof.Machine

def exec (i : Instr) (s : State) : Host.Outcome State Fault Refusal :=
  match i with
  | .dpdEnc fmt => Sys2Proof.Machine.execDpdEnc fmt s
  | .dpdDec fmt => Sys2Proof.Machine.execDpdDec fmt s
  | .cfPack32 => Sys2Proof.Machine.execCfPack32 s
  | .cfPack64 => Sys2Proof.Machine.execCfPack64 s
  | .cfPack128 => Sys2Proof.Machine.execCfPack128 s
  | .cfUnpack32 => Sys2Proof.Machine.execCfUnpack32 s
  | .cfUnpack64 => Sys2Proof.Machine.execCfUnpack64 s
  | .cfUnpack128 => Sys2Proof.Machine.execCfUnpack128 s
  | .reservedPack => Sys2Proof.Machine.execReservedPack s
  | .reservedUnpack => Sys2Proof.Machine.execReservedUnpack s

end Sys2Proof.Machine
end

