-- ==== Sys2Proof/Machine/Step.lean ====
section
/-! DEFINITION. One step is one transaction (00_scope.md rule R10): the command on the `cmd` port is decoded and its meaning evaluated. Nothing is fetched and nothing sequences the steps (10_state.md rule R22). -/

namespace Sys2Proof.Machine

/-- Evaluate the block once on the input ports (00_scope.md rule R10). `cmd` is read by every operation (10_state.md rule R36). No time passes in a step (log 9), and it is of one instance of the block (log 10). -/
def step (s : State) : Host.Outcome State Fault Refusal :=
  readPort .cmd s.inp.cmd fun cmd => exec (decode cmd) s

/-- The state with the table's word on the `cmd` port, where the next step takes its instruction from; every operand port stands. A word that is no 4-bit command drives no command (log 6). -/
def State.withFetchWord (s : State) (nbits w : Nat) : State :=
  { s with inp := { s.inp with cmd := commandOf (tableWord nbits w) } }

end Sys2Proof.Machine
end

