-- ==== Sys2Proof/Machine/Gates.lean ====
section
/-! DEFINITION. The DPD codec as Boolean equations, "for a gate-level model" (40_dpd_codec.md rules R113, R117). The meanings do not use them: that they agree with the tables is stated as an obligation. -/

namespace Sys2Proof.Machine

/-- The encoder's equations (40_dpd_codec.md rule R113); not specified on illegal nibbles. -/
def gateEncode (bcd : Triad) : Declet :=
  let a := bcd.getLsbD 11
  let b := bcd.getLsbD 10
  let c := bcd.getLsbD 9
  let d := bcd.getLsbD 8
  let e := bcd.getLsbD 7
  let f := bcd.getLsbD 6
  let g := bcd.getLsbD 5
  let h := bcd.getLsbD 4
  let i := bcd.getLsbD 3
  let j := bcd.getLsbD 2
  let k := bcd.getLsbD 1
  let m := bcd.getLsbD 0
  let p := b || (a && j) || (a && f && i)
  let q := c || (a && k) || (a && g && i)
  let r := d
  let s := (f && (!a || !i)) || (!a && e && j) || (e && i)
  let t := g || (!a && e && k) || (a && i)
  let u := h
  let v := a || e || i
  let w := a || (e && i) || (!e && j)
  let x := e || (a && i) || (!a && k)
  let y := m
  decletOfBits p q r s t u v w x y

/-- The decoder's equations (40_dpd_codec.md rule R117). -/
def gateDecode (declet : Declet) : Triad :=
  let p := declet.getLsbD 9
  let q := declet.getLsbD 8
  let r := declet.getLsbD 7
  let s := declet.getLsbD 6
  let t := declet.getLsbD 5
  let u := declet.getLsbD 4
  let v := declet.getLsbD 3
  let w := declet.getLsbD 2
  let x := declet.getLsbD 1
  let y := declet.getLsbD 0
  let a := (v && w) && (!s || t || !x)
  let b := p && (!v || !w || (s && !t && x))
  let c := q && (!v || !w || (s && !t && x))
  let d := r
  let e := v && ((!w && x) || (!t && x) || (s && x))
  let f := (s && (!v || !x)) || (p && !s && t && v && w && x)
  let g := (t && (!v || !x)) || (q && !s && t && w)
  let h := u
  let i := v && ((!w && !x) || (w && x && (s || t)))
  let j := (!v && w) || (s && v && !w && x) || (p && w && (!x || (!s && !t)))
  let k := (!v && x) || (t && !w && x) || (q && v && w && (!x || (!s && !t)))
  let m := y
  triadOf (nibbleOfBits a b c d) (nibbleOfBits e f g h) (nibbleOfBits i j k m)

end Sys2Proof.Machine
end

