-- ==== Sys2Proof/Machine/HostCodec.lean ====
section
/-! DEFINITION. The host's side (42_host_composition.md; not hardware): how transactions compose into whole encodings. Every transaction of these procedures is a call of `step` on an instance of the block. -/

namespace Sys2Proof.Machine

/-- `sign`: positive or negative, never unsigned (42_host_composition.md rule R181). -/
inductive Sign where
  | positive
  | negative
  deriving DecidableEq, Repr

/-- `kind` (42_host_composition.md rule R181). -/
inductive Kind where
  | finite
  | positiveInfinity
  | negativeInfinity
  | quietNaN
  | signalingNaN
  deriving DecidableEq, Repr

/-- The document's Decimal value, with its four fields (42_host_composition.md rule R181). DESIGN CHOICE (log 12): a NaN's payload stands in the `coefficient` field; R181 says that the NaN variants carry it and not where. -/
structure Decimal where
  sign : Sign
  coefficient : Nat
  exponent : Int
  kind : Kind
  deriving DecidableEq, Repr

/-- What an encoding says of a Decimal: the fields its kind has (42_host_composition.md rules R186 to R188, R192; log 7). -/
inductive Value where
  | finite (sign : Sign) (coefficient : Nat) (exponent : Int)
  | infinity (sign : Sign)
  | quietNaN (sign : Sign) (payload : Nat)
  | signalingNaN (sign : Sign) (payload : Nat)
  deriving DecidableEq, Repr

/-- The errors of the host's procedures (60_exceptions.md rule R211). -/
inductive HostError where
  /-- `CoefficientOverflow`: the format and the offending value (42_host_composition.md rules R184, R195, R197). -/
  | coefficientOverflow (F : Format) (value : Int)
  /-- `ExponentOverflow`: the format and the biased exponent (42_host_composition.md rule R190). -/
  | exponentOverflow (F : Format) (be : Int)
  /-- `MalformedInput`: the format and the buffer's length (42_host_composition.md rule R196). -/
  | malformedInput (F : Format) (length : Nat)
  /-- A transaction of the host's answered with an error code. -/
  | transactionFault (code : BitVec 2)
  /-- A transaction of the host's was refused. -/
  | transactionRefused (r : Refusal)
  deriving DecidableEq, Repr

/-- The sign bit: 0 positive, 1 negative (10_state.md rule R31). -/
def Sign.bit : Sign → BitVec 1
  | .positive => 0
  | .negative => 1

/-- The sign a sign bit stands for (10_state.md rule R31). -/
def signOfBit (b : BitVec 1) : Sign := if b = 0 then .positive else .negative

/-- `Signum.isPositive`: any value but `+1` and `-1` yields false for both (42_host_composition.md rule R198). -/
def signumIsPositive (signum : Int) : Bool := signum == 1

/-- `Signum.isNegative` (42_host_composition.md rule R198). -/
def signumIsNegative (signum : Int) : Bool := signum == -1

/-- The sign of a legal `signum`; a host holding any other has no sign to present (42_host_composition.md rule R198). -/
def signOfSignum (signum : Int) : Option Sign :=
  if signumIsPositive signum then some .positive
  else if signumIsNegative signum then some .negative
  else none

/-- The value a Decimal stands for; the sign of an infinity is its kind's, whatever the `sign` field holds (42_host_composition.md rule R182, 90_conflicts.md C7). -/
def Decimal.value (d : Decimal) : Value :=
  match d.kind with
  | .finite => .finite d.sign d.coefficient d.exponent
  | .positiveInfinity => .infinity .positive
  | .negativeInfinity => .infinity .negative
  | .quietNaN => .quietNaN d.sign d.coefficient
  | .signalingNaN => .signalingNaN d.sign d.coefficient

/-- `biasedExponent(exponent) = exponent + bias`, on mathematical integers (42_host_composition.md rule R183). -/
def biasedExponent (F : Format) (exponent : Int) : Int := exponent + F.bias

/-- `10^coefficientDigits - 1`, the largest coefficient. -/
def maxCoefficient (F : Format) : Nat := 10 ^ F.digits - 1

/-- `10^(DIG-1) - 1`, the largest payload of a NaN (42_host_composition.md rule R188). -/
def maxPayload (F : Format) : Nat := 10 ^ (F.digits - 1) - 1

/-- `validateCoefficient`: pass-through, or `CoefficientOverflow` with the format and the value; the comparison is on the magnitude (42_host_composition.md rule R184, 90_conflicts.md C8). -/
def validateCoefficient (F : Format) (value : Int) : Except HostError Int :=
  if value.natAbs ≤ maxCoefficient F then .ok value else .error (.coefficientOverflow F value)

/-- The number of decimal digits of `c`, at most `fuel`; 0 has none. -/
def digitCountWithin : Nat → Nat → Nat
  | 0, _ => 0
  | fuel + 1, c => if c = 0 then 0 else 1 + digitCountWithin fuel (c / 10)

/-- The number of decimal digits of `c`; 0 has none (log 11). -/
def digitCount (c : Nat) : Nat := digitCountWithin c c

/-- Drop the `k` last digits, rounding half to even (42_host_composition.md rule R185). -/
def dropDigits (c k : Nat) : Nat :=
  let q := c / 10 ^ k
  let r := c % 10 ^ k
  let half := 5 * 10 ^ (k - 1)
  if half < r ∨ (r = half ∧ q % 2 = 1) then q + 1 else q

/-- Round a coefficient to at most `DIG` digits, moving the exponent up by the digits dropped, and once more where the rounding carries out of the top digit (42_host_composition.md rule R185, 90_conflicts.md C2). -/
def roundCoefficient (F : Format) (c : Nat) (exponent : Int) : Nat × Int :=
  if digitCount c ≤ F.digits then (c, exponent)
  else
    let k := digitCount c - F.digits
    let q := dropDigits c k
    if q = 10 ^ F.digits then (dropDigits q 1, exponent + k + 1) else (q, exponent + k)

/-- One transaction of the host's: present the inputs, evaluate, test `err_o`, take the outputs (70_reset_and_hazards.md rule R245 items 1 and 9). -/
def transact (s : State) (i : Inputs) : Except HostError Outputs :=
  match step (s.present i) with
  | .next t => if t.out.err = 0 then .ok t.out else .error (.transactionFault t.out.err)
  | .fault r => nomatch r
  | .refused r => .error (.transactionRefused r)

/-- `CF.PACK.<w> sign, tag, bexp, lead` (30_encoding.md rule R86). -/
def packInputs (F : Format) (sign : BitVec 1) (tag : Tag) (bexp : BitVec 15) (lead : Nibble) :
    Inputs :=
  { Inputs.undriven with
    cmd := some (encode (packInstr F)), sign := some sign, tag := some (bitsOfTag tag),
    bexp := some bexp, lead := some lead }

/-- `CF.UNPACK.<w> head` (30_encoding.md rule R86). -/
def unpackInputs (F : Format) (head : Head) : Inputs :=
  { Inputs.undriven with cmd := some (encode (unpackInstr F)), head := some head }

/-- `DPD.ENC d2, d1, d0` (30_encoding.md rule R86). -/
def encInputs (t : Triad) : Inputs :=
  { Inputs.undriven with cmd := some (encode (.dpdEnc 0)), bcd := some t }

/-- `DPD.DEC declet` (30_encoding.md rule R86). -/
def decInputs (w : Declet) : Inputs :=
  { Inputs.undriven with cmd := some (encode (.dpdDec 0)), declet := some w }

/-- `D[i]`, the digit of `10^i`, as a nibble (42_host_composition.md rule R189). -/
def digitAt (c i : Nat) : Nibble := BitVec.ofNat 4 (c / 10 ^ i % 10)

/-- Triad `t` of a coefficient: `(D[DIG-2-3t], D[DIG-3-3t], D[DIG-4-3t])` (42_host_composition.md rule R189). -/
def triadAt (F : Format) (c t : Nat) : Triad :=
  triadOf (digitAt c (F.digits - 2 - 3 * t)) (digitAt c (F.digits - 3 - 3 * t))
    (digitAt c (F.digits - 4 - 3 * t))

/-- The `ND` trailing triads, most significant first (42_host_composition.md rule R189). -/
def triadsOf (F : Format) (c : Nat) : List Triad := (List.range F.declets).map (triadAt F c)

/-- One `DPD.ENC` transaction per triad (42_host_composition.md rule R186). -/
def encodeTriads (s : State) : List Triad → Except HostError (List Declet)
  | [] => .ok []
  | t :: ts =>
    match transact s (encInputs t) with
    | .error e => .error e
    | .ok o =>
      match encodeTriads s ts with
      | .error e => .error e
      | .ok ws => .ok (o.declet :: ws)

/-- One `DPD.DEC` transaction per declet (42_host_composition.md rule R192). -/
def decodeDeclets (s : State) : List Declet → Except HostError (List Triad)
  | [] => .ok []
  | w :: ws =>
    match transact s (decInputs w) with
    | .error e => .error e
    | .ok o =>
      match decodeDeclets s ws with
      | .error e => .error e
      | .ok ts => .ok (o.bcd :: ts)

/-- `head ‖ declet[0] ‖ ... ‖ declet[ND-1]` as one integer (20_memory.md rule R53). -/
def joinWord (head : Head) (declets : List Declet) : Nat :=
  declets.foldl (fun word w => word * 2 ^ 10 + w.toNat) head.toNat

/-- The bytes of the encoding word, most significant first: `buf[i] = word[N-1-8i : N-8-8i]` (20_memory.md rule R52, 42_host_composition.md rule R186). -/
def bytesOfWord (F : Format) (word : Nat) : Buffer :=
  (List.range F.bytes).map fun i => BitVec.ofNat 8 (word / 2 ^ (F.bits - 8 - 8 * i))

/-- The encoding word of a buffer, read as one big-endian integer (20_memory.md rule R52). -/
def wordOfBytes (buf : Buffer) : Nat := buf.foldl (fun word b => word * 2 ^ 8 + b.toNat) 0

/-- `MemRead(i, 1)`: one byte of the host's buffer (20_memory.md rule R51). -/
def memRead (buf : Buffer) (i : Nat) : Option Byte := buf[i]?

/-- `MemWrite(i, 1, v)`: one byte of the host's buffer (20_memory.md rule R51). -/
def memWrite (buf : Buffer) (i : Nat) (v : Byte) : Buffer := buf.set i v

/-- `head(F) = word[N-1 : C]` (20_memory.md rule R53). -/
def headOfWord (F : Format) (word : Nat) : Head := BitVec.ofNat 18 (word / 2 ^ F.ccb)

/-- Declet `t`, `word[C-1-10t : C-10-10t]` (20_memory.md rule R53). -/
def decletOfWord (F : Format) (word t : Nat) : Declet :=
  BitVec.ofNat 10 (word / 2 ^ (F.ccb - 10 - 10 * t))

/-- The `ND` declets of a word, most significant first (20_memory.md rule R53). -/
def decletsOfWord (F : Format) (word : Nat) : List Declet :=
  (List.range F.declets).map (decletOfWord F word)

/-- `lead * 10^(DIG-1) + sum of value(triad t) * 10^(3*(ND-1-t))` (42_host_composition.md rules R189, R192). -/
def coefficientOf (lead : Nat) (triads : List Triad) : Nat :=
  triads.foldl (fun c t => c * 1000 + triadValue t) lead

/-- The transactions of one encode, and their results glued into a buffer, written only if every one succeeds (42_host_composition.md rule R186). -/
def encodeFields (s : State) (F : Format) (sign : Sign) (tag : Tag) (be : Int) (lead : Nibble)
    (triads : List Triad) : Except HostError Buffer :=
  match transact s (packInputs F sign.bit tag (BitVec.ofInt 15 be) lead) with
  | .error e => .error e
  | .ok o =>
    match encodeTriads s triads with
    | .error e => .error e
    | .ok declets => .ok (bytesOfWord F (joinWord o.head declets))

/-- `ENCODE.<w>` of an infinity: one transaction, and `CCB` zero bits (42_host_composition.md rule R187); its "(any)" operands are presented as 0 (log 11). -/
def encodeInfinity (s : State) (F : Format) (sign : Sign) : Except HostError Buffer :=
  match transact s (packInputs F sign.bit .inf 0 0) with
  | .error e => .error e
  | .ok o => .ok (bytesOfWord F (joinWord o.head (List.replicate F.declets 0)))

/-- `ENCODE.<w>` of a NaN: the payload has no leading-digit slot, and one that does not fit is `CoefficientOverflow`, not truncated (42_host_composition.md rule R188); the "(any)" operands are presented as 0 (log 11). -/
def encodeNaN (s : State) (F : Format) (tag : Tag) (sign : Sign) (payload : Nat) :
    Except HostError Buffer :=
  if maxPayload F < payload then .error (.coefficientOverflow F payload)
  else encodeFields s F sign tag 0 0 (triadsOf F payload)

/-- Whether the policy turns this biased exponent, outside `[0, ELIMIT]`, into an infinity (42_host_composition.md rule R191; log 8). -/
def saturates (policy : HostPolicy) (be : Int) : Bool :=
  match policy.onOverflow with
  | .error => false
  | .saturateToInfinity => if be < 0 then policy.saturatesNegative else true

/-- `ENCODE.<w>` of a finite value already rounded (42_host_composition.md rule R186); an exponent out of range is the host's to report or to saturate, and is never presented (rules R190, R191). -/
def encodeRounded (s : State) (F : Format) (policy : HostPolicy) (sign : Sign) (c : Nat)
    (exponent : Int) : Except HostError Buffer :=
  if maxCoefficient F < c then .error (.coefficientOverflow F c)
  else
    let be := biasedExponent F exponent
    if exponentOutOfRange F be then
      if saturates policy be then encodeInfinity s F sign else .error (.exponentOverflow F be)
    else encodeFields s F sign .finite be (digitAt c (F.digits - 1)) (triadsOf F c)

/-- `ENCODE.<w>` of a value: a finite one is rounded first (42_host_composition.md rules R180, R185 to R188). -/
def encodeValue (s : State) (F : Format) (policy : HostPolicy) : Value → Except HostError Buffer
  | .finite sign c exponent =>
    let rounded := roundCoefficient F c exponent
    encodeRounded s F policy sign rounded.1 rounded.2
  | .infinity sign => encodeInfinity s F sign
  | .quietNaN sign payload => encodeNaN s F .qnan sign payload
  | .signalingNaN sign payload => encodeNaN s F .snan sign payload

/-- `encode(Decimal, DecimalFormat, onOverflow)` (30_encoding.md rule R86). -/
def encodeDecimal (s : State) (F : Format) (policy : HostPolicy) (d : Decimal) :
    Except HostError Buffer := encodeValue s F policy d.value

/-- The value of the decoded fields; the triads of an infinity are ignored (42_host_composition.md rule R192). -/
def valueOfFields (F : Format) (o : Outputs) (triads : List Triad) : Value :=
  let sign := signOfBit o.sign
  match tagOfBits o.tag with
  | .finite =>
    .finite sign (coefficientOf o.lead.toNat triads) ((o.bexp.toNat : Int) - F.bias)
  | .inf => .infinity sign
  | .qnan => .quietNaN sign (coefficientOf 0 triads)
  | .snan => .signalingNaN sign (coefficientOf 0 triads)

/-- `DECODE.<w>` (42_host_composition.md rule R192). -/
def decodeBuffer (s : State) (F : Format) (buf : Buffer) : Except HostError Value :=
  if buf.length = F.bytes then
    let word := wordOfBytes buf
    match transact s (unpackInputs F (headOfWord F word)) with
    | .error e => .error e
    | .ok o =>
      match decodeDeclets s (decletsOfWord F word) with
      | .error e => .error e
      | .ok triads => .ok (valueOfFields F o triads)
  else .error (.malformedInput F buf.length)

/-- The Decimal a decoded value is: "on decode the host sets both" `kind` and `sign` of an infinity "from the one sign bit" (42_host_composition.md rule R182). The fields the spec leaves open, both of an infinity and the exponent of a NaN, are free values of the decoded value, never of bits that decode ignores (rule R192; log 7); a NaN's payload stands in `coefficient` (log 12). -/
def Value.decimal (F : Format) : Value → Decimal
  | .finite sign c e => { sign := sign, coefficient := c, exponent := e, kind := .finite }
  | .infinity sign =>
    { sign := sign
      coefficient := Config.openCoefficient F sign.bit
      exponent := Config.openExponent F .inf sign.bit 0
      kind := match sign with | .positive => .positiveInfinity | .negative => .negativeInfinity }
  | .quietNaN sign payload =>
    { sign := sign, coefficient := payload,
      exponent := Config.openExponent F .qnan sign.bit payload, kind := .quietNaN }
  | .signalingNaN sign payload =>
    { sign := sign, coefficient := payload,
      exponent := Config.openExponent F .snan sign.bit payload, kind := .signalingNaN }

/-- `decode(bytes, format) -> Decimal` (42_host_composition.md rules R182, R192): a function of the decoded value. -/
def decodeDecimal (s : State) (F : Format) (buf : Buffer) : Except HostError Decimal :=
  (decodeBuffer s F buf).map (Value.decimal F)

/-- A value with its coefficient rounded to the format; only a finite one has a coefficient to round (42_host_composition.md rule R185). -/
def Value.rounded (F : Format) : Value → Value
  | .finite sign c exponent =>
    .finite sign (roundCoefficient F c exponent).1 (roundCoefficient F c exponent).2
  | .infinity sign => .infinity sign
  | .quietNaN sign payload => .quietNaN sign payload
  | .signalingNaN sign payload => .signalingNaN sign payload

/-- The values an encoding can hold exactly (42_host_composition.md rules R181, R186, R188). -/
def Value.fits (F : Format) : Value → Bool
  | .finite _ c exponent =>
    decide (c ≤ maxCoefficient F) && !exponentOutOfRange F (biasedExponent F exponent)
  | .infinity _ => true
  | .quietNaN _ payload => decide (payload ≤ maxPayload F)
  | .signalingNaN _ payload => decide (payload ≤ maxPayload F)

/-- The state the block's ports are in after a transaction on `s`: the answer where there is one, else the ports as presented. -/
def afterTransaction (s : State) (i : Inputs) : State :=
  match step (s.present i) with
  | .next t => t
  | .fault _ => s.present i
  | .refused _ => s.present i

/-- A run: "a finite list of transactions chosen by the host" (70_reset_and_hazards.md rule R246), each on the ports as the one before left them, with every answer. -/
def runTransactions (s : State) : List Inputs → List Answer
  | [] => []
  | i :: is => step (s.present i) :: runTransactions (afterTransaction s i) is

end Sys2Proof.Machine
end

