-- ==== Sys2Proof/Machine/TypedView.lean ====
section
/-! DEFINITION. The block's interface as algebraic types (10_state.md rule R37), for a reader who does not want ports, with the maps between the two views. In this view the outputs that carry no meaning do not exist. -/

namespace Sys2Proof.Machine

/-- A request (10_state.md rule R37). -/
inductive Request where
  | dpdEnc (d2 d1 d0 : Nibble)
  | dpdDec (declet : Declet)
  | cfPack (F : Format) (sign : BitVec 1) (tag : Tag) (bexp : BitVec 15) (lead : Nibble)
  | cfUnpack (F : Format) (head : Head)
  | badFormat
  deriving DecidableEq, Repr

/-- A response (10_state.md rule R37). -/
inductive Response where
  | declet (w : Declet)
  | triad (d2 d1 d0 : Nat)
  | head (F : Format) (h : Head)
  | finite (F : Format) (sign : BitVec 1) (bexp lead : Nat)
  | infinity (sign : BitVec 1)
  | quietNaN (sign : BitVec 1)
  | signalingNaN (sign : BitVec 1)
  | fault (e : BlockError)
  deriving DecidableEq, Repr

/-- The head of a `CfUnpack` request has `HW(F)` bits (10_state.md rule R37). -/
abbrev Request.WellFormed : Request → Prop
  | .cfUnpack F h => h.toNat < 2 ^ F.headWidth
  | .dpdEnc _ _ _ | .dpdDec _ | .cfPack _ _ _ _ _ | .badFormat => True

/-- The ranges of a response's fields: digits 0 to 9, exponents 0 to `ELIMIT(F)`, heads of `HW(F)` bits (10_state.md rule R37). -/
abbrev Response.WellFormed : Response → Prop
  | .triad d2 d1 d0 => d2 ≤ 9 ∧ d1 ≤ 9 ∧ d0 ≤ 9
  | .head F h => h.toNat < 2 ^ F.headWidth
  | .finite F _ bexp lead => bexp ≤ F.elimit ∧ lead ≤ 9
  | .declet _ | .infinity _ | .quietNaN _ | .signalingNaN _ | .fault _ => True

/-- The typed result of an unpacked head. -/
def Unpacked.response (F : Format) (u : Unpacked) : Response :=
  match u.tag with
  | .finite => .finite F u.sign u.bexp u.lead.toNat
  | .inf => .infinity u.sign
  | .qnan => .quietNaN u.sign
  | .snan => .signalingNaN u.sign

/-- The block as a function from requests to responses (10_state.md rules R21, R37). -/
def respond : Request → Response
  | .dpdEnc d2 d1 d0 =>
    match dpdEncode (triadOf d2 d1 d0) with
    | .ok w => .declet w
    | .error e => .fault e
  | .dpdDec w =>
    let t := dpdDecode w
    .triad (digit2 t).toNat (digit1 t).toNat (digit0 t).toNat
  | .cfPack F sign tag bexp lead =>
    match packHead F sign tag bexp lead with
    | .ok h => .head F h
    | .error e => .fault e
  | .cfUnpack F h => (unpackHead F h).response F
  | .badFormat => .fault .invalidFormat

/-- The output ports that show a response: the fields it has on their ports, every other port 0 (10_state.md rules R36, R37, 60_exceptions.md rule R214). -/
def Response.outputs : Response → Outputs
  | .declet w => { Outputs.zero with declet := w }
  | .triad d2 d1 d0 =>
    { Outputs.zero with bcd := triadOf (BitVec.ofNat 4 d2) (BitVec.ofNat 4 d1) (BitVec.ofNat 4 d0) }
  | .head _ h => { Outputs.zero with head := h }
  | .finite _ sign bexp lead =>
    { Outputs.zero with
      sign := sign, tag := bitsOfTag .finite, bexp := BitVec.ofNat 14 bexp,
      lead := BitVec.ofNat 4 lead }
  | .infinity sign => { Outputs.zero with sign := sign, tag := bitsOfTag .inf }
  | .quietNaN sign => { Outputs.zero with sign := sign, tag := bitsOfTag .qnan }
  | .signalingNaN sign => { Outputs.zero with sign := sign, tag := bitsOfTag .snan }
  | .fault e => { Outputs.zero with err := errCode e }

/-- The `CfPack` request on the ports: a special tag needs neither exponent nor digit (log 5), and the typed request's are then 0. -/
def packRequest (F : Format) (inp : Inputs) : Option Request :=
  match inp.sign, inp.tag with
  | some sign, some tag =>
    match tagOfBits tag with
    | .finite =>
      match inp.bexp, inp.lead with
      | some bexp, some lead => some (.cfPack F sign .finite bexp lead)
      | _, _ => none
    | .inf => some (.cfPack F sign .inf 0 0)
    | .qnan => some (.cfPack F sign .qnan 0 0)
    | .snan => some (.cfPack F sign .snan 0 0)
  | _, _ => none

/-- The request an instruction makes of the operand ports, where the ports it reads are driven. -/
def requestOf (i : Instr) (inp : Inputs) : Option Request :=
  match i with
  | .dpdEnc _ => inp.bcd.map fun t => .dpdEnc (digit2 t) (digit1 t) (digit0 t)
  | .dpdDec _ => inp.declet.map .dpdDec
  | .cfPack32 => packRequest .decimal32 inp
  | .cfPack64 => packRequest .decimal64 inp
  | .cfPack128 => packRequest .decimal128 inp
  | .cfUnpack32 => inp.head.map fun h => .cfUnpack .decimal32 (headOnly .decimal32 h)
  | .cfUnpack64 => inp.head.map fun h => .cfUnpack .decimal64 (headOnly .decimal64 h)
  | .cfUnpack128 => inp.head.map fun h => .cfUnpack .decimal128 (headOnly .decimal128 h)
  | .reservedPack => some .badFormat
  | .reservedUnpack => some .badFormat

end Sys2Proof.Machine
end

