-- ==== Sys2Proof/Safety.lean ====
section
/-! DEFINITION. What counts as a safe transaction and as legal, settled outputs, in the terms the statements use. -/

namespace Sys2Proof.Machine

/-- Every port the transaction reads is driven (70_reset_and_hazards.md rule R242): the transactions the spec gives a meaning. -/
def Safe (s : State) : Bool :=
  match s.inp.cmd with
  | none => false
  | some cmd => (portsRead (decode cmd) s.inp).all fun p => s.inp.driven p

/-- Every data output is 0 (60_exceptions.md rule R214). -/
abbrev Outputs.dataZero (o : Outputs) : Prop :=
  o.declet = 0 ∧ o.bcd = 0 ∧ o.head = 0 ∧ o.sign = 0 ∧ o.tag = 0 ∧ o.bexp = 0 ∧ o.lead = 0

/-- The outputs an operation does not drive are 0 (10_state.md rule R36). -/
abbrev Outputs.onlyDriven (i : Instr) (o : Outputs) : Prop :=
  match i with
  | .dpdEnc _ =>
    o.bcd = 0 ∧ o.head = 0 ∧ o.sign = 0 ∧ o.tag = 0 ∧ o.bexp = 0 ∧ o.lead = 0
  | .dpdDec _ =>
    o.declet = 0 ∧ o.head = 0 ∧ o.sign = 0 ∧ o.tag = 0 ∧ o.bexp = 0 ∧ o.lead = 0
  | .cfPack32 | .cfPack64 | .cfPack128 =>
    o.declet = 0 ∧ o.bcd = 0 ∧ o.sign = 0 ∧ o.tag = 0 ∧ o.bexp = 0 ∧ o.lead = 0
  | .cfUnpack32 | .cfUnpack64 | .cfUnpack128 =>
    o.declet = 0 ∧ o.bcd = 0 ∧ o.head = 0
  | .reservedPack | .reservedUnpack => o.dataZero

/-- What is true of the outputs whatever transaction drove them: an error has zero data, every digit is a digit, every declet is canonical, an exponent is within the widest format's range, and a special tag has no exponent and no digit (40_dpd_codec.md rules R116, R118; 41_combination_field.md rule R152; 60_exceptions.md rule R214). -/
abbrev Outputs.Legal (o : Outputs) : Prop :=
  (o.err ≠ 0 → o.dataZero) ∧
  legalTriad o.bcd = true ∧
  isDigit o.lead = true ∧
  canonicalDeclet o.declet = true ∧
  o.bexp.toNat ≤ Format.decimal128.elimit ∧
  (tagOfBits o.tag ≠ .finite → o.bexp = 0 ∧ o.lead = 0)

/-- The outputs are the answer to the inputs that stand on the ports: evaluating again changes nothing (10_state.md rule R38: "the outputs are the function of them the rules give"). -/
def Settled (s : State) : Prop := step s = .next s

/-- Two port assignments agree where an instruction reads (10_state.md rule R36). -/
abbrev Inputs.agreeOn (i : Instr) (a b : Inputs) : Prop :=
  match i with
  | .dpdEnc _ => a.bcd = b.bcd
  | .dpdDec _ => a.declet = b.declet
  | .cfPack32 | .cfPack64 | .cfPack128 =>
    a.sign = b.sign ∧ a.tag = b.tag ∧ (a.tag.map tagOfBits = some .finite → a.bexp = b.bexp ∧ a.lead = b.lead)
  | .cfUnpack32 => a.head.map (headOnly .decimal32) = b.head.map (headOnly .decimal32)
  | .cfUnpack64 => a.head.map (headOnly .decimal64) = b.head.map (headOnly .decimal64)
  | .cfUnpack128 => a.head = b.head
  | .reservedPack | .reservedUnpack => True

/-- The encoding table of 40_dpd_codec.md rule R111 as arithmetic on the digits, row by row on which of them are large; an independent form for the statements to compare the meanings with. -/
def decletNumber (d2 d1 d0 : Nat) : Nat :=
  if d2 < 8 then
    if d1 < 8 then
      if d0 < 8 then 128 * d2 + 16 * d1 + d0 else 128 * d2 + 16 * d1 + 8 + d0 % 2
    else
      if d0 < 8 then 128 * d2 + 32 * (d0 / 2) + 16 * (d1 % 2) + 10 + d0 % 2
      else 128 * d2 + 64 + 16 * (d1 % 2) + 14 + d0 % 2
  else
    if d1 < 8 then
      if d0 < 8 then 256 * (d0 / 2) + 128 * (d2 % 2) + 16 * d1 + 12 + d0 % 2
      else 256 * (d1 / 2) + 128 * (d2 % 2) + 32 + 16 * (d1 % 2) + 14 + d0 % 2
    else
      if d0 < 8 then 256 * (d0 / 2) + 128 * (d2 % 2) + 16 * (d1 % 2) + 14 + d0 % 2
      else 128 * (d2 % 2) + 96 + 16 * (d1 % 2) + 14 + d0 % 2

/-- The decoding table of 40_dpd_codec.md rule R114 as arithmetic on the declet read as a number: the digits `(d2, d1, d0)`. -/
def triadNumbers (n : Nat) : Nat × Nat × Nat :=
  let pqr := n / 128 % 8
  let stu := n / 16 % 8
  let wxy := n % 8
  let pq := n / 256 % 4
  let st := n / 32 % 4
  let r := n / 128 % 2
  let u := n / 16 % 2
  let y := n % 2
  if n / 8 % 2 = 0 then (pqr, stu, wxy)
  else if n / 2 % 4 = 0 then (pqr, stu, 8 + y)
  else if n / 2 % 4 = 1 then (pqr, 8 + u, 2 * st + y)
  else if n / 2 % 4 = 2 then (8 + r, stu, 2 * pq + y)
  else if st = 0 then (8 + r, 8 + u, 2 * pq + y)
  else if st = 1 then (8 + r, 2 * pq + u, 8 + y)
  else if st = 2 then (pqr, 8 + u, 8 + y)
  else (8 + r, 8 + u, 8 + y)

/-- What the unpacker reports, from the combination field read as a number (the table of 30_encoding.md rule R82), the exponent continuation read as a number, and the scale `2^ECB`. -/
def reportedFields (sign : BitVec 1) (comb cont scale : Nat) : Outputs :=
  if comb < 24 then
    { Outputs.zero with
      sign := sign, bexp := BitVec.ofNat 14 (comb / 8 * scale + cont), lead := BitVec.ofNat 4 (comb % 8) }
  else if comb < 30 then
    { Outputs.zero with
      sign := sign, bexp := BitVec.ofNat 14 ((comb - 24) / 2 * scale + cont),
      lead := BitVec.ofNat 4 (8 + comb % 2) }
  else if comb = 30 then { Outputs.zero with sign := sign, tag := 0b01#2 }
  else if 2 * cont < scale then { Outputs.zero with sign := sign, tag := 0b10#2 }
  else { Outputs.zero with sign := sign, tag := 0b11#2 }

/-- The combination field of a finite value as a number, from the two exponent bits and the leading digit (the table of 30_encoding.md rule R82). -/
def combNumber (hi2 lead : Nat) : Nat :=
  if lead ≤ 7 then hi2 * 8 + lead else 24 + hi2 * 2 + lead % 2

/-- The declet `t` of a word read as a number, cut at its place (20_memory.md rule R53). -/
def decletAt (F : Format) (word t : Nat) : Nat := word / 2 ^ (F.ccb - 10 - 10 * t) % 1024

/-- The number a declet stands for, by the decoding table. -/
def decletValue (n : Nat) : Nat :=
  100 * (triadNumbers n).1 + 10 * (triadNumbers n).2.1 + (triadNumbers n).2.2

/-- The trailing digits of a word: the sum of `value(triad t) * 10^(3*(ND-1-t))` (42_host_composition.md rules R189, R192). -/
def trailingNumber (F : Format) (word : Nat) : Nat :=
  ((List.range F.declets).map fun t =>
    decletValue (decletAt F word t) * 10 ^ (3 * (F.declets - 1 - t))).sum

/-- The value an encoding word stands for, each field cut at its place in the word (20_memory.md rule R53) and read as a number; an independent form for the statements to compare the host's decode with. -/
def valueOfWord (F : Format) (word : Nat) : Value :=
  let sign : Sign := if word / 2 ^ (F.bits - 1) % 2 = 0 then .positive else .negative
  let comb := word / 2 ^ (F.ccb + F.ecb) % 32
  let cont := word / 2 ^ F.ccb % 2 ^ F.ecb
  let tail := trailingNumber F word
  if comb < 24 then
    .finite sign (comb % 8 * 10 ^ (F.digits - 1) + tail)
      (((comb / 8 * 2 ^ F.ecb + cont : Nat) : Int) - F.bias)
  else if comb < 30 then
    .finite sign ((8 + comb % 2) * 10 ^ (F.digits - 1) + tail)
      ((((comb - 24) / 2 * 2 ^ F.ecb + cont : Nat) : Int) - F.bias)
  else if comb = 30 then .infinity sign
  else if 2 * cont < 2 ^ F.ecb then .quietNaN sign tail
  else .signalingNaN sign tail

/-- A buffer is canonical when every declet is, every ignored head bit of a special value is 0, and the coefficient continuation of an infinity is 0 (42_host_composition.md rule R194). -/
def canonicalBuffer (F : Format) (buf : Buffer) : Bool :=
  let word := wordOfBytes buf
  let head := headOfWord F word
  (decletsOfWord F word).all canonicalDeclet &&
    match (unpackHead F head).tag with
    | .finite => true
    | .inf => decide (word % 2 ^ (F.ccb + F.ecb) = 0)
    | .qnan => decide (head.toNat % 2 ^ (F.ecb - 1) = 0)
    | .snan => decide (head.toNat % 2 ^ (F.ecb - 1) = 0)

end Sys2Proof.Machine
end

