-- ==== Sys2Proof/Certificates/Slice0/Obligations.lean ====
section
/-! DEFINITION. The statements for the provers, each with the rule of spec/ it formalises. "The spec's own inference" marks what spec/ itself marks [derived]; a log entry marks a choice of the model. -/

open Sys2Proof Sys2Proof.Machine

/-! ### Commands and the step -/

/-- 00_scope.md R10, 10_state.md R36, 70_reset_and_hazards.md R242: a step evaluates the command that stands on `cmd`, and an undriven `cmd` gives it no meaning. -/
def Obligations.StepRunsTheDecodedCommand : Prop :=
  (∀ (s : State) (cmd : Cmd), s.inp.cmd = some cmd → step s = exec (decode cmd) s) ∧
  (∀ s : State, s.inp.cmd = none → step s = .refused (.undriven .cmd))

/-- Log 6 (the model's choice): the word of a table row, on the `cmd` port, is the instruction the next step runs, and nothing else of the state changes. -/
def Obligations.FetchWordIsTheNextCommand : Prop :=
  ∀ (s : State) (cmd : Cmd),
    decodeTableWord 8 cmd.toNat = some (decode cmd) ∧
    s.withFetchWord 8 cmd.toNat = { s with inp := { s.inp with cmd := some cmd } } ∧
    step (s.withFetchWord 8 cmd.toNat) = exec (decode cmd) (s.withFetchWord 8 cmd.toNat)

/-- 30_encoding.md R72: every one of the 16 command values, written out. -/
def Obligations.CommandMapOfTheSixteenValues : Prop :=
  decode 0b0000#4 = .dpdEnc 0b00#2 ∧ decode 0b0001#4 = .dpdEnc 0b01#2 ∧
  decode 0b0010#4 = .dpdEnc 0b10#2 ∧ decode 0b0011#4 = .dpdEnc 0b11#2 ∧
  decode 0b0100#4 = .dpdDec 0b00#2 ∧ decode 0b0101#4 = .dpdDec 0b01#2 ∧
  decode 0b0110#4 = .dpdDec 0b10#2 ∧ decode 0b0111#4 = .dpdDec 0b11#2 ∧
  decode 0b1000#4 = .cfPack32 ∧ decode 0b1001#4 = .cfPack64 ∧ decode 0b1010#4 = .cfPack128 ∧
  decode 0b1011#4 = .reservedPack ∧
  decode 0b1100#4 = .cfUnpack32 ∧ decode 0b1101#4 = .cfUnpack64 ∧ decode 0b1110#4 = .cfUnpack128 ∧
  decode 0b1111#4 = .reservedUnpack

/-- Decode and encode are inverse in both directions (30_encoding.md R70 to R72). -/
def Obligations.DecodeAndEncodeAgree : Prop :=
  (∀ i : Instr, i.WellFormed → decode (encode i) = i) ∧ (∀ cmd : Cmd, encode (decode cmd) = cmd)

/-- Log 6 (the model's choice): a number that does not fit the 4-bit port is rejected by name, never read as a neighbour. -/
def Obligations.NonCommandsAreRejectedByName : Prop :=
  ∀ v : Nat, 16 ≤ v → decodeNat v = .error (.notACommand v)

/-! ### Reset -/

/-- The invariants hold at the state the model starts from; its port values are the model's choice (log 2), and its outputs are the function of them, as 10_state.md R38 says. -/
def Obligations.ResetOutputsAreSettledAndLegal : Prop :=
  Settled State.reset ∧ State.reset.out.Legal ∧ Safe State.reset = true

/-! ### The DPD codec -/

/-- 40_dpd_codec.md R112, with the table of R111 as arithmetic: a legal triad drives its declet, any nibble above 9 raises `InvalidDigit` (code 2) with `declet_o = 0`. -/
def Obligations.DpdEncDrivesTheDeclet : Prop :=
  ∀ (fmt : BitVec 2) (s : State) (d2 d1 d0 : Nibble), s.inp.bcd = some (d2 ++ d1 ++ d0) →
    exec (.dpdEnc fmt) s = .next { s with
    out :=
      if 9 < d2.toNat ∨ 9 < d1.toNat ∨ 9 < d0.toNat then { Outputs.zero with err := 2 }
      else { Outputs.zero with
        declet := BitVec.ofNat 10 (decletNumber d2.toNat d1.toNat d0.toNat) } }

/-- 40_dpd_codec.md R115, with the table of R114 as arithmetic: every declet drives its triad, with no error. -/
def Obligations.DpdDecDrivesTheTriad : Prop :=
  ∀ (fmt : BitVec 2) (s : State) (w : Declet), s.inp.declet = some w →
    exec (.dpdDec fmt) s = .next { s with
    out := { Outputs.zero with
      bcd := BitVec.ofNat 12
        (256 * (triadNumbers w.toNat).1 + 16 * (triadNumbers w.toNat).2.1 +
          (triadNumbers w.toNat).2.2) } }

/-- 40_dpd_codec.md section 2, R113, the spec's own inference ("equivalent to the table of rule R111 on all 1000 legal triads"): on legal triads the encoder's Boolean equations are the meaning. -/
def Obligations.EncoderGatesMatchDpdEnc : Prop :=
  ∀ (fmt : BitVec 2) (s : State) (bcd : Triad), s.inp.bcd = some bcd → legalTriad bcd = true →
    exec (.dpdEnc fmt) s = .next { s with
    out := { Outputs.zero with declet := gateEncode bcd } }

/-- 40_dpd_codec.md section 3, R117, the spec's own inference: on all declets the decoder's Boolean equations are the meaning. -/
def Obligations.DecoderGatesMatchDpdDec : Prop :=
  ∀ (fmt : BitVec 2) (s : State) (w : Declet), s.inp.declet = some w →
    exec (.dpdDec fmt) s = .next { s with
    out := { Outputs.zero with bcd := gateDecode w } }

/-- 40_dpd_codec.md section 3, R116, the spec's own inference ("each output nibble is either ... at most 7, or ... 8 or 9"): the triad driven is three digits. -/
def Obligations.DpdDecDrivesOnlyDigits : Prop :=
  ∀ (fmt : BitVec 2) (s t : State), exec (.dpdDec fmt) s = .next t →
    (t.out.bcd.extractLsb' 8 4).toNat ≤ 9 ∧ (t.out.bcd.extractLsb' 4 4).toNat ≤ 9 ∧
    (t.out.bcd.extractLsb' 0 4).toNat ≤ 9

/-- 40_dpd_codec.md section 5 law 1, the spec's own inference; the document's property "for every digit triad 000..999, decode(encode(triad)) == triad": an encode and then a decode of what it drove give the triad back. -/
def Obligations.DpdRoundTripOfTriads : Prop :=
  ∀ (fmt fmt' : BitVec 2) (s u : State) (bcd : Triad), s.inp.bcd = some bcd → legalTriad bcd = true →
    ∃ t : State, exec (.dpdEnc fmt) s = .next t ∧ t.out.err = 0 ∧
      (u.inp.declet = some t.out.declet →
        exec (.dpdDec fmt') u = .next { u with out := { Outputs.zero with bcd := bcd } })

/-- 40_dpd_codec.md section 5 law 4, the spec's own inference: a decode and then an encode of what it drove give a canonical declet back, and `w & 0x0FF`, which is another declet, for a non-canonical one. -/
def Obligations.DpdReencodeOfDeclets : Prop :=
  ∀ (fmt fmt' : BitVec 2) (s u : State) (w : Declet), s.inp.declet = some w →
    ∃ t : State, exec (.dpdDec fmt) s = .next t ∧
      (u.inp.bcd = some t.out.bcd →
        exec (.dpdEnc fmt') u = .next { u with
          out := { Outputs.zero with
            declet := if canonicalDeclet w then w else w &&& 0x0FF#10 } }) ∧
      (canonicalDeclet w = false → w &&& 0x0FF#10 ≠ w)

/-- 40_dpd_codec.md section 4, R118, the spec's own inference: the declets `DPD.ENC` can drive without an error are exactly the canonical ones, those without `declet[3:1] = 111`, `declet[6:5] = 11`, `declet[9:8] ≠ 00`. -/
def Obligations.CanonicalDecletsAreTheImageOfDpdEnc : Prop :=
  ∀ w : Declet,
    (∃ (fmt : BitVec 2) (s t : State),
      exec (.dpdEnc fmt) s = .next t ∧ t.out.err = 0 ∧ t.out.declet = w) ↔
    ¬ (w.extractLsb' 1 3 = 0b111#3 ∧ w.extractLsb' 5 2 = 0b11#2 ∧ w.extractLsb' 8 2 ≠ 0b00#2)

/-- 40_dpd_codec.md section 5 law 7, the spec's own inference: the lowest bit of each digit passes straight through, in both directions. -/
def Obligations.LowDigitBitsPassThrough : Prop :=
  (∀ (fmt : BitVec 2) (s t : State) (bcd : Triad), s.inp.bcd = some bcd →
    exec (.dpdEnc fmt) s = .next t → t.out.err = 0 →
    t.out.declet.getLsbD 7 = bcd.getLsbD 8 ∧ t.out.declet.getLsbD 4 = bcd.getLsbD 4 ∧
    t.out.declet.getLsbD 0 = bcd.getLsbD 0) ∧
  (∀ (fmt : BitVec 2) (s t : State) (w : Declet), s.inp.declet = some w →
    exec (.dpdDec fmt) s = .next t →
    t.out.bcd.getLsbD 8 = w.getLsbD 7 ∧ t.out.bcd.getLsbD 4 = w.getLsbD 4 ∧
    t.out.bcd.getLsbD 0 = w.getLsbD 0)

/-! ### The packer -/

/-- 41_combination_field.md R143 in bit slices, with the checks in the order of R146. -/
def Obligations.CfPack32DrivesTheHead : Prop :=
  ∀ (s : State) (sign : BitVec 1) (tag : BitVec 2) (bexp : BitVec 15) (lead : Nibble),
    s.inp.sign = some sign → s.inp.tag = some tag → s.inp.bexp = some bexp →
    s.inp.lead = some lead →
    exec .cfPack32 s = .next { s with
    out :=
      if tag = 0b00#2 then
        if bexp.extractLsb' 8 7 ≠ 0 ∨ bexp.extractLsb' 6 2 = 0b11#2 then
          { Outputs.zero with err := 1 }
        else if 9 < lead.toNat then { Outputs.zero with err := 2 }
        else if lead.toNat ≤ 7 then
          { Outputs.zero with
            head := 0#6 ++ sign ++ bexp.extractLsb' 6 2 ++
              lead.extractLsb' 0 3 ++ bexp.extractLsb' 0 6 }
        else
          { Outputs.zero with
            head := 0#6 ++ sign ++ 0b11#2 ++ bexp.extractLsb' 6 2 ++
              lead.extractLsb' 0 1 ++ bexp.extractLsb' 0 6 }
      else if tag = 0b01#2 then { Outputs.zero with head := 0#6 ++ sign ++ 0b11110#5 ++ 0#6 }
      else if tag = 0b10#2 then { Outputs.zero with head := 0#6 ++ sign ++ 0b11111#5 ++ 0#6 }
      else { Outputs.zero with head := 0#6 ++ sign ++ 0b11111#5 ++ 0b100000#6 } }

/-- 41_combination_field.md R144 in bit slices, with the checks in the order of R146. -/
def Obligations.CfPack64DrivesTheHead : Prop :=
  ∀ (s : State) (sign : BitVec 1) (tag : BitVec 2) (bexp : BitVec 15) (lead : Nibble),
    s.inp.sign = some sign → s.inp.tag = some tag → s.inp.bexp = some bexp →
    s.inp.lead = some lead →
    exec .cfPack64 s = .next { s with
    out :=
      if tag = 0b00#2 then
        if bexp.extractLsb' 10 5 ≠ 0 ∨ bexp.extractLsb' 8 2 = 0b11#2 then
          { Outputs.zero with err := 1 }
        else if 9 < lead.toNat then { Outputs.zero with err := 2 }
        else if lead.toNat ≤ 7 then
          { Outputs.zero with
            head := 0#4 ++ sign ++ bexp.extractLsb' 8 2 ++
              lead.extractLsb' 0 3 ++ bexp.extractLsb' 0 8 }
        else
          { Outputs.zero with
            head := 0#4 ++ sign ++ 0b11#2 ++ bexp.extractLsb' 8 2 ++
              lead.extractLsb' 0 1 ++ bexp.extractLsb' 0 8 }
      else if tag = 0b01#2 then { Outputs.zero with head := 0#4 ++ sign ++ 0b11110#5 ++ 0#8 }
      else if tag = 0b10#2 then { Outputs.zero with head := 0#4 ++ sign ++ 0b11111#5 ++ 0#8 }
      else { Outputs.zero with head := 0#4 ++ sign ++ 0b11111#5 ++ 0b10000000#8 } }

/-- 41_combination_field.md R145 in bit slices, with the checks in the order of R146. -/
def Obligations.CfPack128DrivesTheHead : Prop :=
  ∀ (s : State) (sign : BitVec 1) (tag : BitVec 2) (bexp : BitVec 15) (lead : Nibble),
    s.inp.sign = some sign → s.inp.tag = some tag → s.inp.bexp = some bexp →
    s.inp.lead = some lead →
    exec .cfPack128 s = .next { s with
    out :=
      if tag = 0b00#2 then
        if bexp.getLsbD 14 = true ∨ bexp.extractLsb' 12 2 = 0b11#2 then
          { Outputs.zero with err := 1 }
        else if 9 < lead.toNat then { Outputs.zero with err := 2 }
        else if lead.toNat ≤ 7 then
          { Outputs.zero with
            head := sign ++ bexp.extractLsb' 12 2 ++
              lead.extractLsb' 0 3 ++ bexp.extractLsb' 0 12 }
        else
          { Outputs.zero with
            head := sign ++ 0b11#2 ++ bexp.extractLsb' 12 2 ++
              lead.extractLsb' 0 1 ++ bexp.extractLsb' 0 12 }
      else if tag = 0b01#2 then { Outputs.zero with head := sign ++ 0b11110#5 ++ 0#12 }
      else if tag = 0b10#2 then { Outputs.zero with head := sign ++ 0b11111#5 ++ 0#12 }
      else { Outputs.zero with head := sign ++ 0b11111#5 ++ 0b100000000000#12 } }

/-- The heads of the special values (30_encoding.md section 5, the table of R85, the spec's own inference): `comb` 11110 or 11111, and `2^(ECB-1)` in the continuation of a signaling NaN alone. They are driven whatever `bexp_i` and `lead_i` hold, and also where those two are not driven (log 5: the model's reading of "it is not read for a special tag"). -/
def Obligations.SpecialTagsPackWithoutExponentOrDigit : Prop :=
  ∀ (F : Format) (s : State) (sign : BitVec 1) (tag : BitVec 2),
    s.inp.sign = some sign → s.inp.tag = some tag → tag ≠ 0b00#2 →
    exec (packInstr F) s = .next { s with
    out := { Outputs.zero with
      head := BitVec.ofNat 18
        (if tag = 0b01#2 then (sign.toNat * 32 + 30) * 2 ^ F.ecb
         else if tag = 0b10#2 then (sign.toNat * 32 + 31) * 2 ^ F.ecb
         else (sign.toNat * 32 + 31) * 2 ^ F.ecb + 2 ^ (F.ecb - 1)) } }

/-- 41_combination_field.md section 2, R147 (a), (b), (c), the spec's own inference: a packed head fits `HW(F)` bits; a finite operand never packs to the combination field of a special value; a special head's meaningless continuation bits are 0. -/
def Obligations.PackedHeadsAreCanonical : Prop :=
  ∀ (F : Format) (s t : State), exec (packInstr F) s = .next t → t.out.err = 0 →
    t.out.head.toNat < 2 ^ F.headWidth ∧
    (s.inp.tag = some 0b00#2 → t.out.head.toNat / 2 ^ F.ecb % 32 < 30) ∧
    (t.out.head.toNat / 2 ^ F.ecb % 32 = 30 → t.out.head.toNat % 2 ^ F.ecb = 0) ∧
    (t.out.head.toNat / 2 ^ F.ecb % 32 = 31 → t.out.head.toNat % 2 ^ (F.ecb - 1) = 0)

/-! ### The unpacker -/

/-- 41_combination_field.md R153: the fields of `head_i[11:0]` as slices, read by the table of the 32 combination values. -/
def Obligations.CfUnpack32ReportsTheFields : Prop :=
  ∀ (s : State) (h : Head), s.inp.head = some h →
    exec .cfUnpack32 s = .next { s with
    out :=
      reportedFields (h.extractLsb' 11 1) (h.extractLsb' 6 5).toNat (h.extractLsb' 0 6).toNat 64 }

/-- 41_combination_field.md R154: the fields of `head_i[13:0]` as slices, read by the table of the 32 combination values. -/
def Obligations.CfUnpack64ReportsTheFields : Prop :=
  ∀ (s : State) (h : Head), s.inp.head = some h →
    exec .cfUnpack64 s = .next { s with
    out :=
      reportedFields (h.extractLsb' 13 1) (h.extractLsb' 8 5).toNat (h.extractLsb' 0 8).toNat 256 }

/-- 41_combination_field.md R155: the fields of `head_i[17:0]` as slices, read by the table of the 32 combination values. -/
def Obligations.CfUnpack128ReportsTheFields : Prop :=
  ∀ (s : State) (h : Head), s.inp.head = some h →
    exec .cfUnpack128 s = .next { s with
    out :=
      reportedFields (h.extractLsb' 17 1) (h.extractLsb' 12 5).toNat (h.extractLsb' 0 12).toNat
        4096 }

/-- 41_combination_field.md section 3, R152 (a), (b), (c), the spec's own inference: a reported digit is a digit, a reported exponent is at most `ELIMIT(F)`, a special tag reports neither. -/
def Obligations.UnpackedFieldsAreInRange : Prop :=
  ∀ (F : Format) (s t : State), exec (unpackInstr F) s = .next t →
    t.out.err = 0 ∧ t.out.lead.toNat ≤ 9 ∧ t.out.bexp.toNat ≤ F.elimit ∧
    (t.out.tag ≠ 0b00#2 → t.out.bexp = 0 ∧ t.out.lead = 0)

/-- 41_combination_field.md section 4 law 1, the spec's own inference: every legal finite operand comes back from the head it packs to. -/
def Obligations.FiniteOperandsRoundTripThroughTheHead : Prop :=
  ∀ (F : Format) (s u : State) (sign : BitVec 1) (be lead : Nat), be ≤ F.elimit → lead ≤ 9 →
    s.inp.sign = some sign → s.inp.tag = some 0b00#2 → s.inp.bexp = some (BitVec.ofNat 15 be) →
    s.inp.lead = some (BitVec.ofNat 4 lead) →
    ∃ t : State, exec (packInstr F) s = .next t ∧ t.out.err = 0 ∧
      (u.inp.head = some t.out.head →
        exec (unpackInstr F) u = .next { u with
          out := { Outputs.zero with
            sign := sign, bexp := BitVec.ofNat 14 be, lead := BitVec.ofNat 4 lead } })

/-- 41_combination_field.md section 4 law 2, the spec's own inference: sign and special tag come back, with no exponent and no digit, whatever the exponent and digit ports hold. That they come back also where those two ports are not driven rests on log 5 (the model's reading). -/
def Obligations.SpecialTagsRoundTripThroughTheHead : Prop :=
  ∀ (F : Format) (s u : State) (sign : BitVec 1) (tag : BitVec 2),
    s.inp.sign = some sign → s.inp.tag = some tag → tag ≠ 0b00#2 →
    ∃ t : State, exec (packInstr F) s = .next t ∧ t.out.err = 0 ∧
      (u.inp.head = some t.out.head →
        exec (unpackInstr F) u = .next { u with
          out := { Outputs.zero with sign := sign, tag := tag } })

/-- 41_combination_field.md section 4 laws 3 and 4, the spec's own inference: packing again what a head unpacks to gives a finite head back bit for bit, an infinity with its whole continuation cleared, a NaN with the continuation below the quiet/signaling bit cleared. -/
def Obligations.RepackedHeadsAreCanonicalised : Prop :=
  ∀ (F : Format) (s u : State) (h : Head), s.inp.head = some h → h.toNat < 2 ^ F.headWidth →
    ∃ t : State, exec (unpackInstr F) s = .next t ∧
      (u.inp.sign = some t.out.sign → u.inp.tag = some t.out.tag →
        u.inp.bexp = some (t.out.bexp.setWidth 15) → u.inp.lead = some t.out.lead →
        exec (packInstr F) u = .next { u with
          out := { Outputs.zero with
            head :=
              if t.out.tag = 0b00#2 then h
              else if t.out.tag = 0b01#2 then
                BitVec.ofNat 18 (h.toNat / 2 ^ F.ecb * 2 ^ F.ecb)
              else BitVec.ofNat 18 (h.toNat / 2 ^ (F.ecb - 1) * 2 ^ (F.ecb - 1)) } })

/-- 41_combination_field.md R162: the sign bit passes through both operations unchanged for every tag. -/
def Obligations.SignBitPassesThrough : Prop :=
  (∀ (F : Format) (s t : State) (sign : BitVec 1), s.inp.sign = some sign →
    exec (packInstr F) s = .next t → t.out.err = 0 →
    t.out.head.extractLsb' (F.headWidth - 1) 1 = sign) ∧
  (∀ (F : Format) (s t : State) (h : Head), s.inp.head = some h →
    exec (unpackInstr F) s = .next t → t.out.sign = h.extractLsb' (F.headWidth - 1) 1)

/-! ### Errors -/

/-- 30_encoding.md R73: the two reserved commands, as instructions and as the values 1011 and 1111 of `cmd`, raise `InvalidFormat` (code 3) with every data output 0, whatever stands on the operand ports. That they do so also where operand ports are not driven rests on log 5 (the model's reading: a reserved command reads `cmd` alone). -/
def Obligations.ReservedCommandsRaiseInvalidFormat : Prop :=
  ∀ s : State,
    exec .reservedPack s = .next { s with
    out := { Outputs.zero with err := 3 } } ∧
    exec .reservedUnpack s = .next { s with
    out := { Outputs.zero with err := 3 } } ∧
    (s.inp.cmd = some 0b1011#4 ∨ s.inp.cmd = some 0b1111#4 →
      step s = .next { s with
        out := { Outputs.zero with err := 3 } })

/-- 60_exceptions.md R215: `Overflow` is raised by a finite `CF.PACK` whose signed exponent is below 0 or above `ELIMIT(F)`, and by nothing else. -/
def Obligations.OverflowExactlyForExponentsOutOfRange : Prop :=
  ∀ (i : Instr) (s t : State), exec i s = .next t →
    (t.out.err = 1 ↔ ∃ (F : Format) (bexp : BitVec 15), i = packInstr F ∧
      s.inp.tag = some 0b00#2 ∧ s.inp.bexp = some bexp ∧
      (bexp.toInt < 0 ∨ (F.elimit : Int) < bexp.toInt))

/-- 60_exceptions.md R216: `InvalidDigit` is raised by a `DPD.ENC` with a nibble above 9, by a finite `CF.PACK` with its exponent in range and `lead_i` above 9, and by nothing else. -/
def Obligations.InvalidDigitExactlyForNonDigits : Prop :=
  ∀ (i : Instr) (s t : State), exec i s = .next t →
    (t.out.err = 2 ↔
      (∃ (fmt : BitVec 2) (bcd : Triad), i = .dpdEnc fmt ∧ s.inp.bcd = some bcd ∧
        (9 < (bcd.extractLsb' 8 4).toNat ∨ 9 < (bcd.extractLsb' 4 4).toNat ∨
          9 < (bcd.extractLsb' 0 4).toNat)) ∨
      (∃ (F : Format) (bexp : BitVec 15) (lead : Nibble), i = packInstr F ∧
        s.inp.tag = some 0b00#2 ∧ s.inp.bexp = some bexp ∧ s.inp.lead = some lead ∧
        0 ≤ bexp.toInt ∧ bexp.toInt ≤ (F.elimit : Int) ∧ 9 < lead.toNat))

/-- 60_exceptions.md R217: `InvalidFormat` is raised exactly when `cmd[3] = 1` and `cmd[1:0] = 11`. -/
def Obligations.InvalidFormatExactlyForReservedCommands : Prop :=
  ∀ (s t : State) (cmd : Cmd), s.inp.cmd = some cmd → step s = .next t →
    (t.out.err = 3 ↔ cmd.getLsbD 3 = true ∧ cmd.extractLsb' 0 2 = 0b11#2)

/-- 60_exceptions.md R214: on an error every data output is driven 0, `err_o` carries the code and nothing else happens; and the data outputs alone do not show an error, because `DPD.ENC 0,0,0` succeeds with all of them 0. -/
def Obligations.ErrorsDriveZeroData : Prop :=
  (∀ (s t : State), step s = .next t → t.out.err ≠ 0 →
    t = { s with
      out := { Outputs.zero with err := t.out.err } }) ∧
  (∀ (fmt : BitVec 2) (s : State), s.inp.bcd = some (0#4 ++ 0#4 ++ 0#4) →
    exec (.dpdEnc fmt) s = .next { s with
      out := Outputs.zero })

/-- 60_exceptions.md section 2, R218, the spec's own inference: the two decoding operations never fault. -/
def Obligations.DecodingOperationsNeverFault : Prop :=
  ∀ (i : Instr) (s t : State),
    ((∃ fmt, i = .dpdDec fmt) ∨ (∃ F, i = unpackInstr F)) → exec i s = .next t → t.out.err = 0

/-! ### The whole machine -/

/-- THE FRAME of every instruction (10_state.md R36, R21): the inputs stand, and every output port the operation does not drive is 0. -/
def Obligations.OnlyTheDrivenOutputsChange : Prop :=
  ∀ (i : Instr) (s t : State), exec i s = .next t → t.inp = s.inp ∧ t.out.onlyDriven i

/-- 10_state.md R36: the ports an operation does not read, and the outputs that stood before, cannot change the answer; log 5 says which ports the model takes `CF.PACK` to read. -/
def Obligations.UnreadPortsCannotMatter : Prop :=
  ∀ (i : Instr) (a b : State), Inputs.agreeOn i a.inp b.inp →
    (∀ t : State, exec i a = .next t → exec i b = .next { b with out := t.out }) ∧
    (∀ p : InPort, exec i a = .refused (.undriven p) → exec i b = .refused (.undriven p))

/-- 70_reset_and_hazards.md R242: a transaction has an answer exactly when every port it reads is driven, and is refused by the name of a port that is not; log 5 says which ports those are. -/
def Obligations.RefusedExactlyWhereAReadPortIsUndriven : Prop :=
  ∀ s : State,
    (Safe s = true → ∃ t : State, step s = .next t) ∧
    (Safe s = false → ∃ p : InPort, step s = .refused (.undriven p) ∧ s.inp.driven p = false)

/-- An invariant every step keeps, from every state: the outputs are legal: zero data on an error (60_exceptions.md section 1, R214), idle ports 0 (10_state.md section 3, R36), digits (40_dpd_codec.md section 3, 41_combination_field.md section 3) and canonical declets (40_dpd_codec.md section 4). No hypothesis on the outputs before the step is needed: they are driven anew. -/
def Obligations.StepDrivesLegalOutputs : Prop :=
  ∀ s t : State, step s = .next t → t.out.Legal

/-- 10_state.md R21, R23, 60_exceptions.md R222: the answer does not depend on the outputs that stood before, and evaluating the same inputs again answers the same (a faulting transaction faults again in the same way). -/
def Obligations.StepForgetsAndSettles : Prop :=
  ∀ s t : State, step s = .next t →
    Settled t ∧ ∀ o : Outputs, step { s with
    out := o } = .next t

/-- 20_memory.md R58, 60_exceptions.md R222: in a run each transaction answers as it would alone and on any other instance of the block, whatever came before it. -/
def Obligations.RunsAnswerTransactionByTransaction : Prop :=
  ∀ (s s' : State) (is : List Inputs),
    runTransactions s is = is.map fun i => step (s'.present i)

/-- 10_state.md R37: the two views agree. Where the ports an instruction reads are driven they make a well-formed typed request, and the ports then show its response, which is well formed; where one is not, the instruction is refused. -/
def Obligations.TypedViewAgreesWithThePorts : Prop :=
  ∀ (i : Instr) (s : State),
    (∀ r : Request, requestOf i s.inp = some r →
      r.WellFormed ∧ (respond r).WellFormed ∧
      exec i s = .next { s with
    out := (respond r).outputs }) ∧
    (requestOf i s.inp = none → ∃ p : InPort, exec i s = .refused (.undriven p))

/-! ### The constants and the host's side -/

/-- 00_scope.md R5 and R6 (the spec's own inference), and the testable property of 42_host_composition.md R183: the table, the checks it passes, and `biasedExponent(0)`. -/
def Obligations.FormatConstantsAreConsistent : Prop :=
  (∀ F : Format, F.descriptor.WellFormed) ∧
  (Format.decimal32.bits, Format.decimal64.bits, Format.decimal128.bits) = (32, 64, 128) ∧
  (Format.decimal32.ecb, Format.decimal64.ecb, Format.decimal128.ecb) = (6, 8, 12) ∧
  (Format.decimal32.ccb, Format.decimal64.ccb, Format.decimal128.ccb) = (20, 50, 110) ∧
  (Format.decimal32.digits, Format.decimal64.digits, Format.decimal128.digits) = (7, 16, 34) ∧
  (Format.decimal32.elimit, Format.decimal64.elimit, Format.decimal128.elimit) =
    (191, 767, 12287) ∧
  (Format.decimal32.bias, Format.decimal64.bias, Format.decimal128.bias) = (101, 398, 6176) ∧
  (biasedExponent .decimal32 0, biasedExponent .decimal64 0, biasedExponent .decimal128 0) =
    (101, 398, 6176)

/-- 42_host_composition.md R184: `validateCoefficient` passes a magnitude of at most `10^DIG - 1` unchanged and reports any other, with the format and the value. -/
def Obligations.CoefficientsAreValidatedByMagnitude : Prop :=
  ∀ (F : Format) (value : Int),
    ((value.natAbs : Int) ≤ 10 ^ F.digits - 1 → validateCoefficient F value = .ok value) ∧
    (¬ (value.natAbs : Int) ≤ 10 ^ F.digits - 1 →
      validateCoefficient F value = .error (.coefficientOverflow F value))

/-- 42_host_composition.md R198: `isPositive` and `isNegative` hold for `+1` and `-1` only, any other value yields false for both and has no sign; `+1` is bit 0 and `-1` is bit 1. -/
def Obligations.SignumIsNoPartition : Prop :=
  ∀ n : Int,
    (signumIsPositive n = true ↔ n = 1) ∧ (signumIsNegative n = true ↔ n = -1) ∧
    (n ≠ 1 → n ≠ -1 → signOfSignum n = none) ∧
    signOfSignum 1 = some .positive ∧ signOfSignum (-1) = some .negative ∧
    Sign.positive.bit = 0 ∧ Sign.negative.bit = 1

/-- 42_host_composition.md section 3, R185 (written out by the spec as its own inference): a coefficient that fits is left alone; one of `DIG + k` digits drops its last `k`, the exponent going up by `k`, with an error of at most half a unit of the last kept digit, a tie going to an even one; and where that carries out of the top digit, to `10^DIG`, one more digit is dropped. -/
def Obligations.RoundingIsHalfEven : Prop :=
  ∀ (F : Format) (c : Nat) (exponent : Int),
    (c < 10 ^ F.digits → roundCoefficient F c exponent = (c, exponent)) ∧
    (∀ k : Nat, 1 ≤ k → 10 ^ (F.digits + k - 1) ≤ c → c < 10 ^ (F.digits + k) →
      (2 * 10 ^ (F.digits + k) ≤ 2 * c + 10 ^ k →
        roundCoefficient F c exponent = (10 ^ (F.digits - 1), exponent + k + 1)) ∧
      (2 * c + 10 ^ k < 2 * 10 ^ (F.digits + k) → ∃ q : Nat,
        roundCoefficient F c exponent = (q, exponent + k) ∧
        10 ^ (F.digits - 1) ≤ q ∧ q < 10 ^ F.digits ∧
        2 * c ≤ 2 * (q * 10 ^ k) + 10 ^ k ∧ 2 * (q * 10 ^ k) ≤ 2 * c + 10 ^ k ∧
        ((2 * c = 2 * (q * 10 ^ k) + 10 ^ k ∨ 2 * (q * 10 ^ k) = 2 * c + 10 ^ k) → q % 2 = 0)))

/-- 20_memory.md R52: bit `k` of the encoding word is bit `k mod 8` of `buf[NB-1 - (k div 8)]`, and the bytes of the word are the buffer. -/
def Obligations.BuffersAreBigEndian : Prop :=
  ∀ (F : Format) (buf : Buffer), buf.length = F.bytes →
    (∀ k : Nat, k < F.bits →
      some ((wordOfBytes buf).testBit k) =
        (memRead buf (F.bytes - 1 - k / 8)).map fun b => b.getLsbD (k % 8)) ∧
    bytesOfWord F (wordOfBytes buf) = buf

/-- 20_memory.md R53: the head stands in `word[N-1 : C]` and declet `t` in `word[C-1-10t : C-10-10t]`, declet 0 next to the head, with nothing above; and they are read back from there. -/
def Obligations.WordFieldsAreReadBack : Prop :=
  ∀ (F : Format) (h : Head) (declets : List Declet),
    h.toNat < 2 ^ F.headWidth → declets.length = F.declets →
    joinWord h declets < 2 ^ F.bits ∧
    (∀ j : Nat, j < F.headWidth → (joinWord h declets).testBit (F.ccb + j) = h.getLsbD j) ∧
    (∀ (t : Nat) (w : Declet) (j : Nat), declets[t]? = some w → j < 10 →
      (joinWord h declets).testBit (F.ccb - 10 - 10 * t + j) = w.getLsbD j) ∧
    headOfWord F (joinWord h declets) = h ∧ decletsOfWord F (joinWord h declets) = declets ∧
    wordOfBytes (bytesOfWord F (joinWord h declets)) = joinWord h declets

/-- 42_host_composition.md R187: an infinity encodes to `78 00 .. 00` or `F8 00 .. 00`, in every format and on every instance of the block. -/
def Obligations.InfinitiesEncodeToTheirFirstByte : Prop :=
  ∀ (s : State) (F : Format) (sign : Sign),
    encodeInfinity s F sign = .ok
      ((match sign with | .positive => 0x78#8 | .negative => 0xF8#8) ::
        List.replicate (F.bytes - 1) 0x00#8)

/-- 42_host_composition.md R190, R191; log 8: a finite value whose biased exponent AFTER ROUNDING is out of range is reported with that exponent under `onOverflow = error`; under `saturateToInfinity` one above `ELIMIT` encodes the infinity of its sign, and one below 0 does what the open parameter says. -/
def Obligations.ExponentOverflowFollowsThePolicy : Prop :=
  ∀ (s : State) (F : Format) (sign : Sign) (c : Nat) (exponent be : Int),
    be = (roundCoefficient F c exponent).2 + F.bias → (be < 0 ∨ (F.elimit : Int) < be) →
    (∀ below : Bool, encodeValue s F { onOverflow := .error, saturatesNegative := below }
        (.finite sign c exponent) = .error (.exponentOverflow F be)) ∧
    (∀ below : Bool, (F.elimit : Int) < be →
      encodeValue s F { onOverflow := .saturateToInfinity, saturatesNegative := below }
        (.finite sign c exponent) = encodeValue s F
          { onOverflow := .error, saturatesNegative := below } (.infinity sign)) ∧
    (be < 0 →
      encodeValue s F { onOverflow := .saturateToInfinity, saturatesNegative := false }
        (.finite sign c exponent) = .error (.exponentOverflow F be) ∧
      encodeValue s F { onOverflow := .saturateToInfinity, saturatesNegative := true }
        (.finite sign c exponent) = encodeInfinity s F sign)

/-- 42_host_composition.md R188, R196: a payload of more than `DIG - 1` digits is `CoefficientOverflow`, and a buffer of another length is `MalformedInput`, whatever instance of the block is at hand. -/
def Obligations.WidePayloadsAndWrongLengthsAreReported : Prop :=
  (∀ (s : State) (F : Format) (policy : HostPolicy) (sign : Sign) (payload : Nat),
    10 ^ (F.digits - 1) ≤ payload →
    encodeValue s F policy (.quietNaN sign payload) = .error (.coefficientOverflow F payload) ∧
    encodeValue s F policy (.signalingNaN sign payload) =
      .error (.coefficientOverflow F payload)) ∧
  (∀ (s : State) (F : Format) (buf : Buffer), buf.length ≠ F.bytes →
    decodeBuffer s F buf = .error (.malformedInput F buf.length))

/-- 42_host_composition.md R182: the sign of an infinity is its kind's, whatever the `sign` field holds. -/
def Obligations.InfinityKindDecidesTheSign : Prop :=
  ∀ (s : State) (F : Format) (policy : HostPolicy) (d : Decimal),
    (d.kind = .positiveInfinity →
      encodeDecimal s F policy d = .ok (0x78#8 :: List.replicate (F.bytes - 1) 0x00#8)) ∧
    (d.kind = .negativeInfinity →
      encodeDecimal s F policy d = .ok (0xF8#8 :: List.replicate (F.bytes - 1) 0x00#8))

/-- 42_host_composition.md R194, R180, R185 to R189, R192: THE WHOLE-FORMAT ROUND TRIP. Encoding rounds first: a value and its rounded form encode alike. Every value whose rounded form the format can hold encodes, in its `NB` bytes, and decodes to that form, on any instances of the block and under every policy; and a value the format can hold is its own rounded form. -/
def Obligations.WholeEncodingsRoundTrip : Prop :=
  ∀ (s s' : State) (F : Format) (policy : HostPolicy) (v : Value),
    encodeValue s F policy v = encodeValue s F policy (v.rounded F) ∧
    (v.fits F = true → v.rounded F = v) ∧
    ((v.rounded F).fits F = true → ∃ buf : Buffer, encodeValue s F policy v = .ok buf ∧
      buf.length = F.bytes ∧ decodeBuffer s' F buf = .ok (v.rounded F))

/-- 42_host_composition.md R193: every byte sequence of the correct length decodes without error, to a value the format can hold. -/
def Obligations.EveryBufferDecodes : Prop :=
  ∀ (s : State) (F : Format) (buf : Buffer), buf.length = F.bytes →
    ∃ v : Value, decodeBuffer s F buf = .ok v ∧ v.fits F = true

/-- 42_host_composition.md section 4, R194 (the spec's own inference): decoding and encoding again give the buffer back exactly when it is canonical. -/
def Obligations.ReencodingKeepsExactlyTheCanonicalBuffers : Prop :=
  ∀ (s s' : State) (F : Format) (policy : HostPolicy) (buf : Buffer) (v : Value),
    decodeBuffer s F buf = .ok v →
    (encodeValue s' F policy v = .ok buf ↔ canonicalBuffer F buf = true)

/-- 42_host_composition.md sections 1 and 4, R182: decoding gives a Decimal whose sign is the sign bit, the first bit of the buffer, for every kind; "on decode the host sets both" `kind` and `sign` of an infinity from it. It says what the decoded value says. Nothing is said of the fields the spec leaves open (log 7); the payload stands where log 12 says. -/
def Obligations.DecodedDecimalsSetKindAndSign : Prop :=
  ∀ (s : State) (F : Format) (buf : Buffer), buf.length = F.bytes →
    ∃ d : Decimal, decodeDecimal s F buf = .ok d ∧ decodeBuffer s F buf = .ok d.value ∧
      d.sign = (if (wordOfBytes buf).testBit (F.bits - 1) then .negative else .positive) ∧
      (d.kind = .positiveInfinity → d.sign = .positive) ∧
      (d.kind = .negativeInfinity → d.sign = .negative)

/-- 42_host_composition.md section 4, R194: a Decimal the format can hold encodes and decodes to the same kind and value, payload included (log 12: the payload in `coefficient`); a finite one to itself, field by field, the sign of zero preserved. -/
def Obligations.DecimalsRoundTrip : Prop :=
  ∀ (s s' : State) (F : Format) (policy : HostPolicy) (d : Decimal), d.value.fits F = true →
    ∃ (buf : Buffer) (d' : Decimal), encodeDecimal s F policy d = .ok buf ∧
      decodeDecimal s' F buf = .ok d' ∧ d'.kind = d.kind ∧ d'.value = d.value ∧
      (d.kind = .finite → d' = d)

/-- 20_memory.md section 2, R53, and 42_host_composition.md section 3, R186, R189 (the indexing is the spec's own inference): the buffer of a finite value in range, field by field at its place in the word: sign, combination field, exponent continuation, and in declet `t` the digits `DIG-2-3t`, `DIG-3-3t`, `DIG-4-3t` of the coefficient, declet 0 next to the head. -/
def Obligations.FiniteEncodingsHoldTheirFieldsInPlace : Prop :=
  ∀ (s : State) (F : Format) (policy : HostPolicy) (sign : Sign) (c be : Nat),
    c < 10 ^ F.digits → be ≤ F.elimit →
    ∃ buf : Buffer,
      encodeValue s F policy (.finite sign c ((be : Int) - F.bias)) = .ok buf ∧
      buf.length = F.bytes ∧
      wordOfBytes buf / 2 ^ (F.bits - 1) = (match sign with | .positive => 0 | .negative => 1) ∧
      wordOfBytes buf / 2 ^ (F.ccb + F.ecb) % 32 =
        combNumber (be / 2 ^ F.ecb) (c / 10 ^ (F.digits - 1)) ∧
      wordOfBytes buf / 2 ^ F.ccb % 2 ^ F.ecb = be % 2 ^ F.ecb ∧
      ∀ t : Nat, t < F.declets →
        decletAt F (wordOfBytes buf) t =
          decletNumber (c / 10 ^ (F.digits - 2 - 3 * t) % 10) (c / 10 ^ (F.digits - 3 - 3 * t) % 10)
            (c / 10 ^ (F.digits - 4 - 3 * t) % 10)

/-- 20_memory.md section 2, R53, and 42_host_composition.md sections 3 and 4, R189, R192 (the indexing is the spec's own inference): every buffer decodes to the value whose fields stand at their places in its word, the trailing digits being the sum of `value(triad t) * 10^(3*(ND-1-t))`. -/
def Obligations.DecodedValuesReadTheirFieldsInPlace : Prop :=
  ∀ (s : State) (F : Format) (buf : Buffer), buf.length = F.bytes →
    decodeBuffer s F buf = .ok (valueOfWord F (wordOfBytes buf))

/-- 42_host_composition.md section 4, R192 ("triads ignored"), R194, with 93_implementation_defined.md U1, U2, U6, U7: the bits a decode ignores cannot reach the Decimal, its open fields (log 7) included. Two infinities of one sign decode alike whatever their exponent and coefficient continuations hold; two NaNs alike where sign, quiet/signaling bit and payload agree; and any two buffers of one value alike. -/
def Obligations.IgnoredBitsCannotReachTheDecimal : Prop :=
  ∀ (s s' : State) (F : Format) (buf buf' : Buffer),
    buf.length = F.bytes → buf'.length = F.bytes →
    (wordOfBytes buf / 2 ^ (F.ccb + F.ecb) = wordOfBytes buf' / 2 ^ (F.ccb + F.ecb) →
      wordOfBytes buf / 2 ^ (F.ccb + F.ecb) % 32 = 30 →
      decodeDecimal s F buf = decodeDecimal s' F buf') ∧
    (wordOfBytes buf / 2 ^ (F.ccb + F.ecb - 1) = wordOfBytes buf' / 2 ^ (F.ccb + F.ecb - 1) →
      wordOfBytes buf / 2 ^ (F.ccb + F.ecb) % 32 = 31 →
      trailingNumber F (wordOfBytes buf) = trailingNumber F (wordOfBytes buf') →
      decodeDecimal s F buf = decodeDecimal s' F buf') ∧
    (decodeBuffer s F buf = decodeBuffer s' F buf' →
      decodeDecimal s F buf = decodeDecimal s' F buf')
end

