-- ==== Sys2Proof/Laws/Config.lean ====
section
/-! SUPPORT. The constants of each format, field by field (00_scope.md rules R5, R6), so that no proof unfolds the table. -/

namespace Sys2Proof

@[simp] theorem Format.decimal32_bits : Format.decimal32.bits = 32 := rfl
@[simp] theorem Format.decimal32_bytes : Format.decimal32.bytes = 4 := rfl
@[simp] theorem Format.decimal32_digits : Format.decimal32.digits = 7 := rfl
@[simp] theorem Format.decimal32_ecb : Format.decimal32.ecb = 6 := rfl
@[simp] theorem Format.decimal32_ccb : Format.decimal32.ccb = 20 := rfl
@[simp] theorem Format.decimal32_elimit : Format.decimal32.elimit = 191 := rfl
@[simp] theorem Format.decimal32_bias : Format.decimal32.bias = 101 := rfl
@[simp] theorem Format.decimal32_headWidth : Format.decimal32.headWidth = 12 := rfl
@[simp] theorem Format.decimal32_declets : Format.decimal32.declets = 2 := rfl

@[simp] theorem Format.decimal64_bits : Format.decimal64.bits = 64 := rfl
@[simp] theorem Format.decimal64_bytes : Format.decimal64.bytes = 8 := rfl
@[simp] theorem Format.decimal64_digits : Format.decimal64.digits = 16 := rfl
@[simp] theorem Format.decimal64_ecb : Format.decimal64.ecb = 8 := rfl
@[simp] theorem Format.decimal64_ccb : Format.decimal64.ccb = 50 := rfl
@[simp] theorem Format.decimal64_elimit : Format.decimal64.elimit = 767 := rfl
@[simp] theorem Format.decimal64_bias : Format.decimal64.bias = 398 := rfl
@[simp] theorem Format.decimal64_headWidth : Format.decimal64.headWidth = 14 := rfl
@[simp] theorem Format.decimal64_declets : Format.decimal64.declets = 5 := rfl

@[simp] theorem Format.decimal128_bits : Format.decimal128.bits = 128 := rfl
@[simp] theorem Format.decimal128_bytes : Format.decimal128.bytes = 16 := rfl
@[simp] theorem Format.decimal128_digits : Format.decimal128.digits = 34 := rfl
@[simp] theorem Format.decimal128_ecb : Format.decimal128.ecb = 12 := rfl
@[simp] theorem Format.decimal128_ccb : Format.decimal128.ccb = 110 := rfl
@[simp] theorem Format.decimal128_elimit : Format.decimal128.elimit = 12287 := rfl
@[simp] theorem Format.decimal128_bias : Format.decimal128.bias = 6176 := rfl
@[simp] theorem Format.decimal128_headWidth : Format.decimal128.headWidth = 18 := rfl
@[simp] theorem Format.decimal128_declets : Format.decimal128.declets = 11 := rfl

end Sys2Proof
end

