-- ==== Sys2Proof/Laws/Decode.lean ====
section
/-! SUPPORT. The small lemmas of the command words. -/

namespace Sys2Proof

/-- The type of instructions admits no ill-formed one. -/
theorem Instr.wellFormed_all (i : Instr) : i.WellFormed := by
  cases i <;> simp only [Instr.WellFormed] <;> omega

theorem commandOf_lt (v : Nat) (h : v < 16) : commandOf v = some (BitVec.ofNat 4 v) := by
  simp [commandOf, h]

theorem commandOf_ge (v : Nat) (h : 16 ≤ v) : commandOf v = none := by
  simp [commandOf, Nat.not_lt.mpr h]

theorem tableWord_of_lt (nbits w : Nat) (h : w < 2 ^ nbits) : tableWord nbits w = w :=
  Nat.mod_eq_of_lt h

@[simp] theorem decode_encode_packInstr (F : Format) : decode (encode (packInstr F)) = packInstr F := by
  cases F <;> rfl

@[simp] theorem decode_encode_unpackInstr (F : Format) :
    decode (encode (unpackInstr F)) = unpackInstr F := by
  cases F <;> rfl

end Sys2Proof
end

