-- ==== Sys2Proof/Laws/Head.lean ====
section
/-! SUPPORT. The fields of a head as numbers: what gluing them gives, what cutting them out gives, and that cutting undoes gluing. -/

namespace Sys2Proof.Machine

/-- A glued head read as a number. -/
theorem joinHead_toNat (F : Format) (sign : BitVec 1) (comb : BitVec 5) (cont : BitVec F.ecb) :
    (joinHead F sign comb cont).toNat =
      (sign.toNat * 32 + comb.toNat) * 2 ^ F.ecb + cont.toNat := by
  have hs := sign.isLt
  have hc := comb.isLt
  have hk := cont.isLt
  have happ : (sign ++ comb ++ cont).toNat =
      (sign.toNat * 32 + comb.toNat) * 2 ^ F.ecb + cont.toNat := by
    rw [BitVec.toNat_append, BitVec.toNat_append, ← Nat.shiftLeft_add_eq_or_of_lt hc,
      ← Nat.shiftLeft_add_eq_or_of_lt hk]
    simp [Nat.shiftLeft_eq]
  rw [joinHead, BitVec.toNat_setWidth, happ]
  apply Nat.mod_eq_of_lt
  cases F <;> simp at * <;> omega

theorem headSign_toNat (F : Format) (h : Head) :
    (headSign F h).toNat = h.toNat / 2 ^ (F.headWidth - 1) % 2 := by
  simp [headSign, BitVec.extractLsb'_toNat, Nat.shiftRight_eq_div_pow]

theorem headComb_toNat (F : Format) (h : Head) :
    (headComb F h).toNat = h.toNat / 2 ^ (F.headWidth - 6) % 32 := by
  simp [headComb, BitVec.extractLsb'_toNat, Nat.shiftRight_eq_div_pow]

theorem headCont_toNat (F : Format) (h : Head) : (headCont F h).toNat = h.toNat % 2 ^ F.ecb := by
  simp [headCont, BitVec.extractLsb'_toNat]

theorem headSign_joinHead (F : Format) (sign : BitVec 1) (comb : BitVec 5) (cont : BitVec F.ecb) :
    headSign F (joinHead F sign comb cont) = sign := by
  apply BitVec.eq_of_toNat_eq
  rw [headSign_toNat, joinHead_toNat]
  have hs := sign.isLt
  have hc := comb.isLt
  have hk := cont.isLt
  cases F <;> simp at * <;> omega

theorem headComb_joinHead (F : Format) (sign : BitVec 1) (comb : BitVec 5) (cont : BitVec F.ecb) :
    headComb F (joinHead F sign comb cont) = comb := by
  apply BitVec.eq_of_toNat_eq
  rw [headComb_toNat, joinHead_toNat]
  have hs := sign.isLt
  have hc := comb.isLt
  have hk := cont.isLt
  cases F <;> simp at * <;> omega

theorem headCont_joinHead (F : Format) (sign : BitVec 1) (comb : BitVec 5) (cont : BitVec F.ecb) :
    headCont F (joinHead F sign comb cont) = cont := by
  apply BitVec.eq_of_toNat_eq
  rw [headCont_toNat, joinHead_toNat]
  have hk := cont.isLt
  rw [Nat.mul_comm, Nat.mul_add_mod, Nat.mod_eq_of_lt hk]

end Sys2Proof.Machine
end

