-- ==== Sys2Proof/Laws/HostCodec.lean ====
section
/-! SUPPORT. The small lemmas of the host's value types. -/

namespace Sys2Proof.Machine

@[simp] theorem Sign.signOfBit_bit (sign : Sign) : signOfBit sign.bit = sign := by
  cases sign <;> rfl

/-- The Decimal of a value stands for that value, whatever its open fields hold. -/
@[simp] theorem Value.value_decimal (F : Format) (v : Value) : (v.decimal F).value = v := by
  rcases v with _ | ⟨_ | _⟩ | _ | _ <;> rfl

/-- The Decimal of a finite Decimal's value is that Decimal. -/
theorem Decimal.decimal_value_of_finite (F : Format) (d : Decimal) (h : d.kind = .finite) :
    d.value.decimal F = d := by
  obtain ⟨_, _, _, _⟩ := d
  cases h
  rfl

/-- The kind of a Decimal survives the way through its value. -/
@[simp] theorem Decimal.kind_decimal_value (F : Format) (d : Decimal) :
    (d.value.decimal F).kind = d.kind := by
  obtain ⟨_, _, _, kind⟩ := d
  cases kind <;> rfl

/-- Decoding to a Decimal and decoding to a value succeed together. -/
theorem decodeDecimal_of_ok {s : State} {F : Format} {buf : Buffer} {v : Value}
    (h : decodeBuffer s F buf = .ok v) : decodeDecimal s F buf = .ok (v.decimal F) := by
  simp [decodeDecimal, h, Except.map]

@[simp] theorem Value.rounded_finite (F : Format) (sign : Sign) (c : Nat) (exponent : Int) :
    (Value.finite sign c exponent).rounded F =
      .finite sign (roundCoefficient F c exponent).1 (roundCoefficient F c exponent).2 := rfl
@[simp] theorem Value.rounded_infinity (F : Format) (sign : Sign) :
    (Value.infinity sign).rounded F = .infinity sign := rfl
@[simp] theorem Value.rounded_quietNaN (F : Format) (sign : Sign) (payload : Nat) :
    (Value.quietNaN sign payload).rounded F = .quietNaN sign payload := rfl
@[simp] theorem Value.rounded_signalingNaN (F : Format) (sign : Sign) (payload : Nat) :
    (Value.signalingNaN sign payload).rounded F = .signalingNaN sign payload := rfl

/-- A number below `10^n` has at most `n` digits. -/
theorem digitCountWithin_le (fuel n c : Nat) (h : c < 10 ^ n) : digitCountWithin fuel c ≤ n := by
  induction fuel generalizing n c with
  | zero => exact Nat.zero_le _
  | succ fuel ih =>
    unfold digitCountWithin
    split
    · exact Nat.zero_le _
    · cases n with
      | zero => rw [pow_zero] at h; omega
      | succ n =>
        have := ih n (c / 10) (by rw [pow_succ] at h; omega)
        omega

end Sys2Proof.Machine
end

