-- ==== Sys2Proof/Laws/State.lean ====
section
/-! SUPPORT. One lemma per field per update of the state, so that no proof unfolds a record update, and the outputs that stand at reset. -/

namespace Sys2Proof.Machine

@[simp] theorem State.present_inp (s : State) (i : Inputs) : (s.present i).inp = i := rfl
@[simp] theorem State.present_out (s : State) (i : Inputs) : (s.present i).out = s.out := rfl
@[simp] theorem State.drive_inp (s : State) (o : Outputs) : (s.drive o).inp = s.inp := rfl
@[simp] theorem State.drive_out (s : State) (o : Outputs) : (s.drive o).out = o := rfl
@[simp] theorem State.raise_inp (s : State) (e : BlockError) : (s.raise e).inp = s.inp := rfl
@[simp] theorem State.raise_out (s : State) (e : BlockError) :
    (s.raise e).out = { Outputs.zero with err := errCode e } := rfl
@[simp] theorem State.answer_ok (s : State) (o : Outputs) : s.answer (.ok o) = s.drive o := rfl
@[simp] theorem State.answer_error (s : State) (e : BlockError) : s.answer (.error e) = s.raise e := rfl

@[simp] theorem State.drive_drive (s : State) (o o' : Outputs) : (s.drive o).drive o' = s.drive o' := rfl
@[simp] theorem State.drive_present (s : State) (i : Inputs) (o : Outputs) :
    (s.present i).drive o = { inp := i, out := o } := rfl

/-- Every answer keeps the inputs that stand on the ports. -/
@[simp] theorem State.answer_inp (s : State) (r : Except BlockError Outputs) :
    (s.answer r).inp = s.inp := by
  cases r <;> rfl

/-- What an answer drives, and that the outputs that stood before do not take part in it. -/
theorem State.answer_out_congr (a b : State) (r : Except BlockError Outputs) :
    (a.answer r).out = (b.answer r).out := by
  cases r <;> rfl

@[simp] theorem Outputs.zero_declet : Outputs.zero.declet = 0 := rfl
@[simp] theorem Outputs.zero_bcd : Outputs.zero.bcd = 0 := rfl
@[simp] theorem Outputs.zero_head : Outputs.zero.head = 0 := rfl
@[simp] theorem Outputs.zero_sign : Outputs.zero.sign = 0 := rfl
@[simp] theorem Outputs.zero_tag : Outputs.zero.tag = 0 := rfl
@[simp] theorem Outputs.zero_bexp : Outputs.zero.bexp = 0 := rfl
@[simp] theorem Outputs.zero_lead : Outputs.zero.lead = 0 := rfl
@[simp] theorem Outputs.zero_err : Outputs.zero.err = 0 := rfl

end Sys2Proof.Machine
end

