-- ==== Sys2Proof/Laws/Ops.lean ====
section
/-! SUPPORT. One spec lemma per shared operation: reading a port, and each meaning on driven ports; and what a meaning can answer, said once. -/

namespace Sys2Proof.Machine

@[simp] theorem readPort_some {n : Nat} (p : InPort) (x : BitVec n) (k : BitVec n → Answer) :
    readPort p (some x) k = k x := rfl

@[simp] theorem readPort_none {n : Nat} (p : InPort) (k : BitVec n → Answer) :
    readPort p none k = .refused (.undriven p) := rfl

/-- A port read that ends in a next state read a driven port. -/
theorem readPort_next {n : Nat} {p : InPort} {v : Option (BitVec n)} {k : BitVec n → Answer}
    {t : State} (h : readPort p v k = .next t) : ∃ x, v = some x ∧ k x = .next t := by
  cases v with
  | none => cases h
  | some x => exact ⟨x, rfl, h⟩

theorem step_of_cmd (s : State) (cmd : Cmd) (h : s.inp.cmd = some cmd) :
    step s = exec (decode cmd) s := by
  simp [step, h]

/-- `DPD.ENC` on a driven operand. -/
theorem exec_dpdEnc_of_bcd (fmt : BitVec 2) (s : State) (bcd : Triad) (h : s.inp.bcd = some bcd) :
    exec (.dpdEnc fmt) s =
      .next (s.answer ((dpdEncode bcd).map fun w => { Outputs.zero with declet := w })) := by
  simp [exec, execDpdEnc, h]

/-- `DPD.DEC` on a driven operand. -/
theorem exec_dpdDec_of_declet (fmt : BitVec 2) (s : State) (w : Declet) (h : s.inp.declet = some w) :
    exec (.dpdDec fmt) s = .next (s.drive { Outputs.zero with bcd := dpdDecode w }) := by
  simp [exec, execDpdDec, h]

/-- `CF.PACK` on a finite operand. -/
theorem packPorts_of_finite (F : Format) (s : State) (sign : BitVec 1) (tag : BitVec 2)
    (bexp : BitVec 15) (lead : Nibble) (hs : s.inp.sign = some sign) (ht : s.inp.tag = some tag)
    (hf : tagOfBits tag = .finite) (hb : s.inp.bexp = some bexp) (hl : s.inp.lead = some lead) :
    packPorts F s = .next (s.answer ((packFinite F sign bexp lead).map headOutputs)) := by
  simp [packPorts, hs, ht, hf, hb, hl]

/-- `CF.PACK` on a special tag: neither the exponent nor the digit is read. -/
theorem packPorts_of_special (F : Format) (s : State) (sign : BitVec 1) (tag : BitVec 2)
    (hs : s.inp.sign = some sign) (ht : s.inp.tag = some tag) (hf : tagOfBits tag ≠ .finite) :
    packPorts F s = .next (s.drive (headOutputs (packSpecial F sign (tagOfBits tag)))) := by
  simp only [packPorts, hs, ht, readPort_some]
  cases h : tagOfBits tag with
  | finite => exact absurd h hf
  | inf => rfl
  | qnan => rfl
  | snan => rfl

/-- `CF.UNPACK` on a driven operand. -/
theorem unpackPorts_of_head (F : Format) (s : State) (h : Head) (hh : s.inp.head = some h) :
    unpackPorts F s = .next (s.drive (unpackHead F h).outputs) := by
  simp [unpackPorts, hh]

/-- All that `CF.PACK` can answer a next state with. -/
theorem packPorts_next {F : Format} {s t : State} (h : packPorts F s = .next t) :
    ∃ (sign : BitVec 1) (tag : BitVec 2), s.inp.sign = some sign ∧ s.inp.tag = some tag ∧
      ((tagOfBits tag = .finite ∧ ∃ (bexp : BitVec 15) (lead : Nibble),
          s.inp.bexp = some bexp ∧ s.inp.lead = some lead ∧
          t = s.answer ((packFinite F sign bexp lead).map headOutputs)) ∨
        (tagOfBits tag ≠ .finite ∧
          t = s.drive (headOutputs (packSpecial F sign (tagOfBits tag))))) := by
  obtain ⟨sign, hs, h⟩ := readPort_next h
  obtain ⟨tag, ht, h⟩ := readPort_next h
  refine ⟨sign, tag, hs, ht, ?_⟩
  cases hf : tagOfBits tag with
  | finite =>
    simp only [hf] at h
    obtain ⟨bexp, hb, h⟩ := readPort_next h
    obtain ⟨lead, hl, h⟩ := readPort_next h
    exact .inl ⟨rfl, bexp, lead, hb, hl, (Host.Outcome.next.inj h).symm⟩
  | inf => simp only [hf] at h; exact .inr ⟨by simp, (Host.Outcome.next.inj h).symm⟩
  | qnan => simp only [hf] at h; exact .inr ⟨by simp, (Host.Outcome.next.inj h).symm⟩
  | snan => simp only [hf] at h; exact .inr ⟨by simp, (Host.Outcome.next.inj h).symm⟩

/-- All that `CF.UNPACK` can answer a next state with. -/
theorem unpackPorts_next {F : Format} {s t : State} (h : unpackPorts F s = .next t) :
    ∃ x : Head, s.inp.head = some x ∧ t = s.drive (unpackHead F x).outputs := by
  obtain ⟨x, hx, h⟩ := readPort_next h
  exact ⟨x, hx, (Host.Outcome.next.inj h).symm⟩

/-- All that `DPD.ENC` can answer a next state with. -/
theorem exec_dpdEnc_next {fmt : BitVec 2} {s t : State} (h : exec (.dpdEnc fmt) s = .next t) :
    ∃ bcd : Triad, s.inp.bcd = some bcd ∧
      t = s.answer ((dpdEncode bcd).map fun w => { Outputs.zero with declet := w }) := by
  obtain ⟨bcd, hb, h⟩ := readPort_next h
  exact ⟨bcd, hb, (Host.Outcome.next.inj h).symm⟩

/-- All that `DPD.DEC` can answer a next state with. -/
theorem exec_dpdDec_next {fmt : BitVec 2} {s t : State} (h : exec (.dpdDec fmt) s = .next t) :
    ∃ w : Declet, s.inp.declet = some w ∧
      t = s.drive { Outputs.zero with bcd := dpdDecode w } := by
  obtain ⟨w, hw, h⟩ := readPort_next h
  exact ⟨w, hw, (Host.Outcome.next.inj h).symm⟩

@[simp] theorem exec_packInstr (F : Format) (s : State) : exec (packInstr F) s = packPorts F s := by
  cases F <;> rfl

@[simp] theorem exec_unpackInstr (F : Format) (s : State) :
    exec (unpackInstr F) s = unpackPorts F s := by
  cases F <;> rfl

/-- No instruction stops the machine with a fault. -/
theorem exec_ne_fault (i : Instr) (s : State) (r : Fault) : exec i s ≠ .fault r := nomatch r

end Sys2Proof.Machine
end

