-- ==== Sys2Proof/Laws/PerInstr.lean ====
section
/-! SUPPORT. Laws of every instruction as syntax, one lemma per constructor. -/

/-- The command of an instruction lies in exactly one row of the opcode table, the row of its mnemonic: no two rows overlap on it (30_encoding.md rule R72). -/
def Sys2Proof.Laws.OpcodeRow.Statement (i : Sys2Proof.Instr) : Prop :=
  (Sys2Proof.opcodeTable.filter fun r => r.covers (Sys2Proof.encode i)).map (·.mnemonic) = [i.mnemonic]

namespace Sys2Proof.Laws.OpcodeRow

theorem dpdEnc (fmt : BitVec 2) : Statement (.dpdEnc fmt) := by
  unfold Statement; revert fmt; decide

theorem dpdDec (fmt : BitVec 2) : Statement (.dpdDec fmt) := by
  unfold Statement; revert fmt; decide

theorem cfPack32 : Statement .cfPack32 := by unfold Statement; decide
theorem cfPack64 : Statement .cfPack64 := by unfold Statement; decide
theorem cfPack128 : Statement .cfPack128 := by unfold Statement; decide
theorem cfUnpack32 : Statement .cfUnpack32 := by unfold Statement; decide
theorem cfUnpack64 : Statement .cfUnpack64 := by unfold Statement; decide
theorem cfUnpack128 : Statement .cfUnpack128 := by unfold Statement; decide
theorem reservedPack : Statement .reservedPack := by unfold Statement; decide
theorem reservedUnpack : Statement .reservedUnpack := by unfold Statement; decide

end Sys2Proof.Laws.OpcodeRow
end

