-- ==== Sys2Proof/Tests/Slice0.lean ====
section
/-! SUPPORT. The model's own tests: ill-formed terms that the checks refuse, commands written out bit by bit, at most two single steps per instruction with results from 95_test_vectors.md, and for every statement with hypotheses a concrete state that meets all of them. -/

namespace Sys2Proof.Tests

open Sys2Proof.Machine

/-- The outputs of an answer that is a next state. -/
def outputs : Answer → Option Outputs
  | .next t => some t.out
  | .fault r => nomatch r
  | .refused _ => none

/-- The refusal of an answer that is one. -/
def refusal : Answer → Option Refusal
  | .next _ => none
  | .fault r => nomatch r
  | .refused r => some r

/-- The value of a host procedure that succeeds. -/
def value {α : Type} : Except HostError α → Option α
  | .ok v => some v
  | .error _ => none

/-- The error of a host procedure that fails. -/
def failure {α : Type} : Except HostError α → Option HostError
  | .ok _ => none
  | .error e => some e

/-- A state with the command and every operand port 0 ("Ports not listed are 0 on input", 95_test_vectors.md section 6). -/
def ports (cmd : Cmd) : State := State.reset.present { Inputs.zero with cmd := some cmd }

/-- A triad on `bcd_i`. -/
def onBcd (s : State) (t : Triad) : State := s.present { s.inp with bcd := some t }

/-- A declet on `declet_i`. -/
def onDeclet (s : State) (w : Declet) : State := s.present { s.inp with declet := some w }

/-- A head on `head_i`. -/
def onHead (s : State) (h : Head) : State := s.present { s.inp with head := some h }

/-- The four operands of `CF.PACK`. -/
def onPack (s : State) (sign : BitVec 1) (tag : BitVec 2) (bexp : BitVec 15) (lead : Nibble) : State :=
  s.present { s.inp with sign := some sign, tag := some tag, bexp := some bexp, lead := some lead }

/-! ### Ill-formed terms: each check refuses one -/

/-- A descriptor of 31 bits whose bytes follow: only the sum of the fields is wrong. -/
theorem test_fieldsMustFillTheWord :
    ¬ { Format.decimal32.descriptor with bits := 31 }.FieldsFillTheWord := by decide
theorem test_bytesMustBeWhole :
    ¬ { Format.decimal32.descriptor with bytes := 5 }.WholeBytes := by decide
/-- 192 is `3 * 2^ECB`, one more than the largest exponent. -/
theorem test_elimitMustBeOneLess :
    ¬ { Format.decimal32.descriptor with elimit := 192 }.ExponentLimit := by decide
theorem test_triadsMustBeExact :
    ¬ { Format.decimal32.descriptor with digits := 8 }.TriadsExact := by decide
theorem test_decletsMustFill :
    ¬ { Format.decimal32.descriptor with declets := 3 }.DecletsFill := by decide
theorem test_headMustHoldItsFields :
    ¬ { Format.decimal32.descriptor with headWidth := 13 }.HeadFields := by decide
theorem test_illFormedDescriptor :
    ¬ { Format.decimal64.descriptor with ccb := 60 }.WellFormed := by decide
theorem test_sixteenIsNoCommand : ¬ CommandWord 16 ∧ CommandWord 15 := by decide
theorem test_sixteenIsRejectedByName : decodeNat 16 = .error (.notACommand 16) := rfl
theorem test_tableWordAboveFourBits : decodeTableWord 8 0x18 = none := by decide
/-- A head with a bit above `HW = 12` is no request of Decimal32. -/
theorem test_illFormedRequest : ¬ (Request.cfUnpack .decimal32 0x1000#18).WellFormed := by decide
theorem test_illFormedTriad : ¬ (Response.triad 9 10 0).WellFormed := by decide
theorem test_illFormedHead : ¬ (Response.head .decimal64 0x4000#18).WellFormed := by decide
theorem test_illFormedExponent : ¬ (Response.finite .decimal32 0 192 0).WellFormed := by decide

/-! ### Commands written out from 30_encoding.md R70 to R72: `op` in the two upper bits, `fmt` in the two lower -/

theorem test_decode_0000 : decode 0b0000#4 = .dpdEnc 0b00#2 := by decide
theorem test_decode_0011 : decode 0b0011#4 = .dpdEnc 0b11#2 := by decide
theorem test_decode_0110 : decode 0b0110#4 = .dpdDec 0b10#2 := by decide
theorem test_decode_1000 : decode 0b1000#4 = .cfPack32 := by decide
theorem test_decode_1001 : decode 0b1001#4 = .cfPack64 := by decide
theorem test_decode_1010 : decode 0b1010#4 = .cfPack128 := by decide
theorem test_decode_1011 : decode 0b1011#4 = .reservedPack := by decide
theorem test_decode_1100 : decode 0b1100#4 = .cfUnpack32 := by decide
theorem test_decode_1101 : decode 0b1101#4 = .cfUnpack64 := by decide
theorem test_decode_1110 : decode 0b1110#4 = .cfUnpack128 := by decide
theorem test_decode_1111 : decode 0b1111#4 = .reservedUnpack := by decide
theorem test_encode_dpdDec : encode (.dpdDec 0b01#2) = 0b0101#4 := by decide
theorem test_encode_cfUnpack128 : encode .cfUnpack128 = 0b1110#4 := by decide

/-! ### Single steps, two per instruction, from 95_test_vectors.md -/

/-- F10: the ports the operation does not read are ignored. -/
theorem test_F10_enc_ignores_other_ports :
    outputs (step (onBcd (onDeclet (onHead (onPack (ports 0b0000#4) 1 0b11#2 0x7FFF#15 15#4) 0x3FFFF#18)
      0x3FF#10) 0x750#12)) = some { Outputs.zero with declet := 0x3D0#10 } := by decide
/-- F12: nibble 10 in digit 1, `fmt = 10` ignored. -/
theorem test_F12_enc_invalid_digit :
    outputs (step (onBcd (ports 0b0010#4) 0x7A0#12)) = some { Outputs.zero with err := 2 } := by decide
/-- DD11. -/
theorem test_DD11_dec :
    outputs (step (onDeclet (ports 0b0100#4) 0x05F#10)) = some { Outputs.zero with bcd := 0x099#12 } := by
  decide
/-- DD29: a non-canonical declet. -/
theorem test_DD29_dec_noncanonical :
    outputs (step (onDeclet (ports 0b0111#4) 0x3FF#10)) = some { Outputs.zero with bcd := 0x999#12 } := by
  decide
/-- F4: `Overflow` before `InvalidDigit`. -/
theorem test_F4_pack32_overflow_first :
    outputs (step (onPack (ports 0b1000#4) 0 0b00#2 192#15 12#4)) = some { Outputs.zero with err := 1 } := by
  decide
/-- F8: a special tag ignores exponent and digit. -/
theorem test_F8_pack32_special :
    outputs (step (onPack (ports 0b1000#4) 1 0b01#2 0x7FFF#15 15#4)) =
      some { Outputs.zero with head := 0x00F80#18 } := by decide
/-- P64-3. -/
theorem test_P64_3_pack64 :
    outputs (step (onPack (ports 0b1001#4) 0 0b00#2 398#15 0#4)) =
      some { Outputs.zero with head := 0x088E#18 } := by decide
/-- F6: 192 is legal in Decimal64, and the digit 9 takes the second layout. -/
theorem test_F6_pack64_large_digit :
    outputs (step (onPack (ports 0b1001#4) 0 0b00#2 192#15 9#4)) =
      some { Outputs.zero with head := 0x019C0#18 } := by decide
/-- P128-9: the largest exponent and digit. -/
theorem test_P128_9_pack128 :
    outputs (step (onPack (ports 0b1010#4) 0 0b00#2 12287#15 9#4)) =
      some { Outputs.zero with head := 0x1DFFF#18 } := by decide
/-- P128-24: the port is signed, all ones is -1. -/
theorem test_P128_24_pack128_negative :
    outputs (step (onPack (ports 0b1010#4) 0 0b00#2 0x7FFF#15 0#4)) =
      some { Outputs.zero with err := 1 } := by decide
/-- F3: all three causes at once, `InvalidFormat` wins. -/
theorem test_F3_reserved_pack :
    outputs (step (onPack (ports 0b1011#4) 0 0b00#2 200#15 12#4)) = some { Outputs.zero with err := 3 } := by
  decide
/-- The worked example of 41_combination_field.md R150: `CF.UNPACK.32 0x6BF`. -/
theorem test_R150_unpack32 :
    outputs (step (onHead (ports 0b1100#4) 0x6BF#18)) =
      some { Outputs.zero with bexp := 127#14, lead := 8#4 } := by decide
/-- F13: the spare bits of the port are ignored. -/
theorem test_F13_unpack32_spare_bits :
    outputs (step (onHead (ports 0b1100#4) 0x3FFFF#18)) =
      some { Outputs.zero with sign := 1, tag := 0b11#2 } := by decide
/-- The worked example of 41_combination_field.md R154. -/
theorem test_R154_unpack64 :
    outputs (step (onHead (ports 0b1101#4) 0x1DFF#18)) =
      some { Outputs.zero with bexp := 767#14, lead := 9#4 } := by decide
/-- U64-8: a quiet NaN with every ignored bit 1. -/
theorem test_U64_8_unpack64_quiet :
    outputs (step (onHead (ports 0b1101#4) 0x1F7F#18)) = some { Outputs.zero with tag := 0b10#2 } := by
  decide
/-- The worked example of 41_combination_field.md R155. -/
theorem test_R155_unpack128 :
    outputs (step (onHead (ports 0b1110#4) 0x3F801#18)) =
      some { Outputs.zero with sign := 1, tag := 0b11#2 } := by decide
/-- U128-6: an infinity with ignored bits set. -/
theorem test_U128_6_unpack128_infinity :
    outputs (step (onHead (ports 0b1110#4) 0x3E005#18)) =
      some { Outputs.zero with sign := 1, tag := 0b01#2 } := by decide
/-- F2. -/
theorem test_F2_reserved_unpack :
    outputs (step (onHead (ports 0b1111#4) 0x00225#18)) = some { Outputs.zero with err := 3 } := by decide

/-! ### The host's side -/

/-- X32-5: a non-canonical declet decodes to 999. -/
theorem test_X32_5_decode :
    value (decodeBuffer State.reset .decimal32 [0x22#8, 0x50#8, 0x03#8, 0xFF#8]) =
      some (.finite .positive 999 0) := by decide
/-- X32-6: 999e0. -/
theorem test_X32_6_encode :
    value (encodeValue State.reset .decimal32 { onOverflow := .error, saturatesNegative := false }
      (.finite .positive 999 0)) = some [0x22#8, 0x50#8, 0x00#8, 0xFF#8] := by decide
/-- 42_host_composition.md R185 with 90_conflicts.md C2: the corrected example. -/
theorem test_R185_rounding : roundCoefficient .decimal32 99999995 0 = (1000000, 2) := by decide
/-- 42_host_composition.md R184: the first value beyond, on either side of zero. -/
theorem test_R184_validate :
    failure (validateCoefficient .decimal32 (-10000000)) =
      some (.coefficientOverflow .decimal32 (-10000000)) ∧
    value (validateCoefficient .decimal32 (-9999999)) = some (-9999999) := by decide

/-! ### Witnesses: for every statement with hypotheses, states and operands that meet all of them, at the boundaries of each clause -/

/-- A transaction of the DPD encoder on 999, and its answer (95_test_vectors.md: `999 -> 0x0FF`). -/
def enc999 : State := onBcd (ports 0b0000#4) 0x999#12
/-- The answer to `enc999`. -/
def enc999Next : State := enc999.drive { Outputs.zero with declet := 0x0FF#10 }
/-- A transaction of the DPD decoder on a non-canonical declet of 999. -/
def dec3FF : State := onDeclet (ports 0b0100#4) 0x3FF#10
/-- The answer to `dec3FF`. -/
def dec3FFNext : State := dec3FF.drive { Outputs.zero with bcd := 0x999#12 }
/-- The finite pack P128-9. -/
def pack128 : State := onPack (ports 0b1010#4) 0 0b00#2 12287#15 9#4
/-- The answer to `pack128`. -/
def pack128Next : State := pack128.drive { Outputs.zero with head := 0x1DFFF#18 }
/-- A pack of a signaling NaN. -/
def packSnan : State := onPack (ports 0b1000#4) 1 0b11#2 0x7FFF#15 15#4
/-- The answer to `packSnan`. -/
def packSnanNext : State := packSnan.drive { Outputs.zero with head := 0xFE0#18 }
/-- A pack of an infinity. -/
def packInf : State := onPack (ports 0b1000#4) 1 0b01#2 0x7FFF#15 15#4
/-- The answer to `packInf` (F8). -/
def packInfNext : State := packInf.drive { Outputs.zero with head := 0xF80#18 }
/-- An unpack of the head of the largest Decimal32 exponent and digit. -/
def unpack77F : State := onHead (ports 0b1100#4) 0x77F#18
/-- The answer to `unpack77F`. -/
def unpack77FNext : State := unpack77F.drive { Outputs.zero with bexp := 191#14, lead := 9#4 }
/-- An unpack of an infinity whose ignored bits are all 1. -/
def unpackInf : State := onHead (ports 0b1100#4) 0x7BF#18
/-- The answer to `unpackInf`. -/
def unpackInfNext : State := unpackInf.drive { Outputs.zero with tag := 0b01#2 }
/-- A pack whose exponent is one too large. -/
def packOver : State := onPack (ports 0b1000#4) 0 0b00#2 192#15 12#4
/-- The answer to `packOver` (F4). -/
def packOverNext : State := packOver.drive { Outputs.zero with err := 1 }
/-- A pack whose digit is the smallest non-digit, with the largest exponent. -/
def packDigit : State := onPack (ports 0b1000#4) 0 0b00#2 191#15 10#4
/-- The answer to `packDigit`. -/
def packDigitNext : State := packDigit.drive { Outputs.zero with err := 2 }
/-- A reserved command. -/
def reserved : State := ports 0b1011#4
/-- The answer to `reserved` (F1). -/
def reservedNext : State := reserved.drive { Outputs.zero with err := 3 }
/-- `DPD.ENC` with nothing on its operand port. -/
def encUndriven : State := State.reset.present { Inputs.undriven with cmd := some 0b0000#4 }
/-- `CF.PACK.32` of an infinity with nothing on the exponent and digit ports. -/
def infUndriven : State :=
  State.reset.present { Inputs.undriven with cmd := some 0b1000#4, sign := some 0, tag := some 0b01#2 }
/-- A policy. -/
def reporting : HostPolicy := { onOverflow := .error, saturatesNegative := false }

theorem witness_StepRunsTheDecodedCommand :
    enc999.inp.cmd = some 0b0000#4 ∧ (State.reset.present Inputs.undriven).inp.cmd = none := by decide
theorem witness_NonCommandsAreRejectedByName : 16 ≤ 16 := by decide
/-- A legal triad, and the smallest non-digit in each place. -/
theorem witness_DpdEncDrivesTheDeclet :
    enc999.inp.bcd = some (9#4 ++ 9#4 ++ 9#4) ∧
    (onBcd enc999 0xA00#12).inp.bcd = some (10#4 ++ 0#4 ++ 0#4) ∧
    (onBcd enc999 0x0A0#12).inp.bcd = some (0#4 ++ 10#4 ++ 0#4) ∧
    (onBcd enc999 0x00A#12).inp.bcd = some (0#4 ++ 0#4 ++ 10#4) := by decide
theorem witness_DpdDecDrivesTheTriad : dec3FF.inp.declet = some 0x3FF#10 := by decide
theorem witness_EncoderGatesMatchDpdEnc :
    enc999.inp.bcd = some 0x999#12 ∧ legalTriad 0x999#12 = true := by decide
theorem witness_DecoderGatesMatchDpdDec : dec3FF.inp.declet = some 0x3FF#10 := by decide
theorem witness_DpdDecDrivesOnlyDigits : exec (.dpdDec 0b00#2) dec3FF = .next dec3FFNext := rfl
/-- The second transaction's port holds what the first drove. -/
theorem witness_DpdRoundTripOfTriads :
    enc999.inp.bcd = some 0x999#12 ∧ legalTriad 0x999#12 = true ∧
    exec (.dpdEnc 0b00#2) enc999 = .next enc999Next ∧
    (onDeclet dec3FF 0x0FF#10).inp.declet = some enc999Next.out.declet := ⟨rfl, rfl, rfl, rfl⟩
/-- With a non-canonical declet. -/
theorem witness_DpdReencodeOfDeclets :
    dec3FF.inp.declet = some 0x3FF#10 ∧ exec (.dpdDec 0b00#2) dec3FF = .next dec3FFNext ∧
    enc999.inp.bcd = some dec3FFNext.out.bcd ∧ canonicalDeclet 0x3FF#10 = false ∧
    canonicalDeclet 0x0FF#10 = true := ⟨rfl, rfl, rfl, rfl, rfl⟩
/-- Both directions: a declet that is driven, and one that meets the condition. -/
theorem witness_CanonicalDecletsAreTheImageOfDpdEnc :
    (exec (.dpdEnc 0b00#2) enc999 = .next enc999Next ∧ enc999Next.out.err = 0 ∧
      enc999Next.out.declet = 0x0FF#10) ∧
    ¬ ((0x0FF#10).extractLsb' 1 3 = 0b111#3 ∧ (0x0FF#10).extractLsb' 5 2 = 0b11#2 ∧
      (0x0FF#10).extractLsb' 8 2 ≠ 0b00#2) := ⟨⟨rfl, rfl, rfl⟩, by decide⟩
theorem witness_LowDigitBitsPassThrough :
    (enc999.inp.bcd = some 0x999#12 ∧ exec (.dpdEnc 0b00#2) enc999 = .next enc999Next ∧
      enc999Next.out.err = 0) ∧
    (dec3FF.inp.declet = some 0x3FF#10 ∧ exec (.dpdDec 0b00#2) dec3FF = .next dec3FFNext) :=
  ⟨⟨rfl, rfl, rfl⟩, rfl, rfl⟩

theorem witness_CfPack32DrivesTheHead :
    packOver.inp.sign = some 0#1 ∧ packOver.inp.tag = some 0b00#2 ∧ packOver.inp.bexp = some 192#15 ∧
    packOver.inp.lead = some 12#4 := by decide
theorem witness_CfPack64DrivesTheHead :
    packDigit.inp.sign = some 0#1 ∧ packDigit.inp.tag = some 0b00#2 ∧
    packDigit.inp.bexp = some 191#15 ∧ packDigit.inp.lead = some 10#4 := by decide
theorem witness_CfPack128DrivesTheHead :
    pack128.inp.sign = some 0#1 ∧ pack128.inp.tag = some 0b00#2 ∧ pack128.inp.bexp = some 12287#15 ∧
    pack128.inp.lead = some 9#4 := by decide
theorem witness_SpecialTagsPackWithoutExponentOrDigit :
    infUndriven.inp.sign = some 0#1 ∧ infUndriven.inp.tag = some 0b01#2 ∧
    (0b01#2 : BitVec 2) ≠ 0b00#2 := by decide
/-- A finite head for the first clause, an infinity for the second, a NaN for the third. -/
theorem witness_PackedHeadsAreCanonical :
    (exec (packInstr .decimal128) pack128 = .next pack128Next ∧ pack128Next.out.err = 0 ∧
      pack128.inp.tag = some 0b00#2) ∧
    (exec (packInstr .decimal32) packInf = .next packInfNext ∧ packInfNext.out.err = 0 ∧
      packInfNext.out.head.toNat / 2 ^ Format.decimal32.ecb % 32 = 30) ∧
    (exec (packInstr .decimal32) packSnan = .next packSnanNext ∧ packSnanNext.out.err = 0 ∧
      packSnanNext.out.head.toNat / 2 ^ Format.decimal32.ecb % 32 = 31) :=
  ⟨⟨rfl, rfl, rfl⟩, ⟨rfl, rfl, rfl⟩, rfl, rfl, rfl⟩

theorem witness_CfUnpack32ReportsTheFields : unpack77F.inp.head = some 0x77F#18 := by decide
theorem witness_CfUnpack64ReportsTheFields : unpackInf.inp.head = some 0x7BF#18 := by decide
theorem witness_CfUnpack128ReportsTheFields :
    (onHead unpackInf 0x3FFFF#18).inp.head = some 0x3FFFF#18 := by decide
theorem witness_UnpackedFieldsAreInRange :
    exec (unpackInstr .decimal32) unpack77F = .next unpack77FNext ∧
    exec (unpackInstr .decimal32) unpackInf = .next unpackInfNext ∧ unpackInfNext.out.tag ≠ 0b00#2 :=
  ⟨rfl, rfl, by decide⟩
/-- The largest exponent and digit. -/
theorem witness_FiniteOperandsRoundTripThroughTheHead :
    12287 ≤ Format.decimal128.elimit ∧ 9 ≤ 9 ∧ pack128.inp.sign = some 0#1 ∧
    pack128.inp.tag = some 0b00#2 ∧ pack128.inp.bexp = some (BitVec.ofNat 15 12287) ∧
    pack128.inp.lead = some (BitVec.ofNat 4 9) ∧
    exec (packInstr .decimal128) pack128 = .next pack128Next ∧
    (onHead pack128 0x1DFFF#18).inp.head = some pack128Next.out.head :=
  ⟨by decide, by decide, rfl, rfl, rfl, rfl, rfl, rfl⟩
theorem witness_SpecialTagsRoundTripThroughTheHead :
    packSnan.inp.sign = some 1#1 ∧ packSnan.inp.tag = some 0b11#2 ∧ (0b11#2 : BitVec 2) ≠ 0b00#2 ∧
    exec (packInstr .decimal32) packSnan = .next packSnanNext ∧
    (onHead packSnan 0xFE0#18).inp.head = some packSnanNext.out.head :=
  ⟨rfl, rfl, by decide, rfl, rfl⟩
theorem witness_RepackedHeadsAreCanonicalised :
    unpack77F.inp.head = some 0x77F#18 ∧ (0x77F#18).toNat < 2 ^ Format.decimal32.headWidth ∧
    exec (unpackInstr .decimal32) unpack77F = .next unpack77FNext ∧
    (onPack unpack77F 0 0b00#2 191#15 9#4).inp.sign = some unpack77FNext.out.sign ∧
    (onPack unpack77F 0 0b00#2 191#15 9#4).inp.tag = some unpack77FNext.out.tag ∧
    (onPack unpack77F 0 0b00#2 191#15 9#4).inp.bexp = some (unpack77FNext.out.bexp.setWidth 15) ∧
    (onPack unpack77F 0 0b00#2 191#15 9#4).inp.lead = some unpack77FNext.out.lead :=
  ⟨rfl, by decide, rfl, rfl, rfl, rfl, rfl⟩
theorem witness_SignBitPassesThrough :
    (packSnan.inp.sign = some 1#1 ∧ exec (packInstr .decimal32) packSnan = .next packSnanNext ∧
      packSnanNext.out.err = 0) ∧
    (unpack77F.inp.head = some 0x77F#18 ∧
      exec (unpackInstr .decimal32) unpack77F = .next unpack77FNext) :=
  ⟨⟨rfl, rfl, rfl⟩, rfl, rfl⟩

theorem witness_ReservedCommandsRaiseInvalidFormat :
    reserved.inp.cmd = some 0b1011#4 ∧ (ports 0b1111#4).inp.cmd = some 0b1111#4 := by decide
/-- One beyond the range, with the condition met, and the largest legal exponent, with it not met. -/
theorem witness_OverflowExactlyForExponentsOutOfRange :
    (exec .cfPack32 packOver = .next packOverNext ∧ packOverNext.out.err = 1 ∧
      Instr.cfPack32 = packInstr .decimal32 ∧ packOver.inp.tag = some 0b00#2 ∧
      packOver.inp.bexp = some 192#15 ∧ (Format.decimal32.elimit : Int) < (192#15).toInt) ∧
    (exec .cfPack128 pack128 = .next pack128Next ∧ pack128Next.out.err ≠ 1) :=
  ⟨⟨rfl, rfl, rfl, rfl, rfl, by decide⟩, rfl, by decide⟩
theorem witness_InvalidDigitExactlyForNonDigits :
    (exec .cfPack32 packDigit = .next packDigitNext ∧ packDigitNext.out.err = 2 ∧
      packDigit.inp.tag = some 0b00#2 ∧ packDigit.inp.bexp = some 191#15 ∧
      packDigit.inp.lead = some 10#4 ∧ 0 ≤ (191#15).toInt ∧
      (191#15).toInt ≤ (Format.decimal32.elimit : Int) ∧ 9 < (10#4).toNat) ∧
    (exec (.dpdEnc 0b00#2) enc999 = .next enc999Next ∧ enc999Next.out.err ≠ 2) :=
  ⟨⟨rfl, rfl, rfl, rfl, rfl, by decide, by decide, by decide⟩, rfl, by decide⟩
theorem witness_InvalidFormatExactlyForReservedCommands :
    (reserved.inp.cmd = some 0b1011#4 ∧ step reserved = .next reservedNext ∧
      reservedNext.out.err = 3) ∧
    (pack128.inp.cmd = some 0b1010#4 ∧ step pack128 = .next pack128Next ∧
      pack128Next.out.err ≠ 3) := ⟨⟨rfl, rfl, rfl⟩, rfl, rfl, by decide⟩
theorem witness_ErrorsDriveZeroData :
    (step packOver = .next packOverNext ∧ packOverNext.out.err ≠ 0) ∧
    (onBcd enc999 0x000#12).inp.bcd = some (0#4 ++ 0#4 ++ 0#4) := ⟨⟨rfl, by decide⟩, by decide⟩
theorem witness_DecodingOperationsNeverFault :
    exec (.dpdDec 0b00#2) dec3FF = .next dec3FFNext ∧
    exec (unpackInstr .decimal32) unpackInf = .next unpackInfNext := ⟨rfl, rfl⟩
theorem witness_OnlyTheDrivenOutputsChange :
    exec (.dpdEnc 0b00#2) enc999 = .next enc999Next ∧ exec (.dpdDec 0b00#2) dec3FF = .next dec3FFNext ∧
    exec .cfPack128 pack128 = .next pack128Next ∧ exec .cfUnpack32 unpack77F = .next unpack77FNext ∧
    exec .reservedPack reserved = .next reservedNext := ⟨rfl, rfl, rfl, rfl, rfl⟩
/-- Two states that differ in the ports a special tag does not read; and two that are refused alike. -/
theorem witness_UnreadPortsCannotMatter :
    (Inputs.agreeOn .cfPack32 packInf.inp (onPack packInf 1 0b01#2 0#15 0#4).inp ∧
      exec .cfPack32 packInf = .next packInfNext) ∧
    (Inputs.agreeOn (.dpdEnc 0b00#2) encUndriven.inp (State.reset.present Inputs.undriven).inp ∧
      exec (.dpdEnc 0b00#2) encUndriven = .refused (.undriven .bcd)) :=
  ⟨⟨by decide, rfl⟩, rfl, rfl⟩
/-- An infinity needs no exponent and no digit (log 5), and `DPD.ENC` needs its triad. -/
theorem witness_RefusedExactlyWhereAReadPortIsUndriven :
    Safe infUndriven = true ∧ Safe encUndriven = false := by decide
theorem witness_StepDrivesLegalOutputs :
    step packOver = .next packOverNext ∧ step unpack77F = .next unpack77FNext := ⟨rfl, rfl⟩
theorem witness_StepForgetsAndSettles : step pack128 = .next pack128Next := rfl
theorem witness_TypedViewAgreesWithThePorts :
    requestOf .cfPack32 packInf.inp = some (.cfPack .decimal32 1 .inf 0 0) ∧
    requestOf (.dpdEnc 0b00#2) encUndriven.inp = none := by decide

/-- The largest coefficient, and the first beyond it. -/
theorem witness_CoefficientsAreValidatedByMagnitude :
    (((-9999999 : Int).natAbs : Int) ≤ 10 ^ Format.decimal32.digits - 1) ∧
    ¬ (((10000000 : Int).natAbs : Int) ≤ 10 ^ Format.decimal32.digits - 1) := by decide
theorem witness_SignumIsNoPartition : (0 : Int) ≠ 1 ∧ (0 : Int) ≠ -1 := by decide
/-- The largest coefficient that fits, the first that carries and the last that does not (`k = 1`). -/
theorem witness_RoundingIsHalfEven :
    9999999 < 10 ^ Format.decimal32.digits ∧
    (1 ≤ 1 ∧ 10 ^ (Format.decimal32.digits + 1 - 1) ≤ 99999995 ∧
      99999995 < 10 ^ (Format.decimal32.digits + 1) ∧
      2 * 10 ^ (Format.decimal32.digits + 1) ≤ 2 * 99999995 + 10 ^ 1) ∧
    (10 ^ (Format.decimal32.digits + 1 - 1) ≤ 99999994 ∧
      99999994 < 10 ^ (Format.decimal32.digits + 1) ∧
      2 * 99999994 + 10 ^ 1 < 2 * 10 ^ (Format.decimal32.digits + 1)) := by decide
theorem witness_BuffersAreBigEndian :
    [0x22#8, 0x50#8, 0x03#8, 0xFF#8].length = Format.decimal32.bytes ∧ 31 < Format.decimal32.bits := by
  decide
theorem witness_WordFieldsAreReadBack :
    (0xFFF#18).toNat < 2 ^ Format.decimal32.headWidth ∧
    [0x3FF#10, 0x000#10].length = Format.decimal32.declets ∧ 11 < Format.decimal32.headWidth ∧
    [0x3FF#10, 0x000#10][1]? = some 0x000#10 ∧ 9 < 10 := by decide
/-- One above the range, by rounding alone, for the second clause; one below it for the third. -/
theorem witness_ExponentOverflowFollowsThePolicy :
    ((192 : Int) = (roundCoefficient .decimal32 10000000 90).2 + Format.decimal32.bias ∧
      (Format.decimal32.elimit : Int) < 192) ∧
    ((-1 : Int) = (roundCoefficient .decimal32 0 (-102)).2 + Format.decimal32.bias ∧
      (-1 : Int) < 0) := by decide
theorem witness_WidePayloadsAndWrongLengthsAreReported :
    10 ^ (Format.decimal32.digits - 1) ≤ 1000000 ∧
    [0x22#8, 0x50#8, 0x03#8].length ≠ Format.decimal32.bytes := by decide
/-- Each kind beside the other sign. -/
theorem witness_InfinityKindDecidesTheSign :
    ({ sign := .negative, coefficient := 0, exponent := 0, kind := .positiveInfinity } : Decimal).kind =
      .positiveInfinity ∧
    ({ sign := .positive, coefficient := 0, exponent := 0, kind := .negativeInfinity } : Decimal).kind =
      .negativeInfinity := by decide
/-- The largest finite value, the largest payload, and a value that fits only after rounding. -/
theorem witness_WholeEncodingsRoundTrip :
    (Value.finite .negative 9999999 90).fits .decimal32 = true ∧
    (Value.signalingNaN .positive 999999).fits .decimal32 = true ∧
    (Value.finite .positive 99999995 0).fits .decimal32 = false ∧
    ((Value.finite .positive 99999995 0).rounded .decimal32).fits .decimal32 = true := by decide
theorem witness_EveryBufferDecodes :
    [0xFF#8, 0xFF#8, 0xFF#8, 0xFF#8].length = Format.decimal32.bytes := by decide
/-- A canonical buffer, and one that is not. -/
theorem witness_ReencodingKeepsExactlyTheCanonicalBuffers :
    decodeBuffer State.reset .decimal32 [0x22#8, 0x50#8, 0x00#8, 0xFF#8] =
      .ok (.finite .positive 999 0) ∧
    canonicalBuffer .decimal32 [0x22#8, 0x50#8, 0x00#8, 0xFF#8] = true ∧
    decodeBuffer State.reset .decimal32 [0x22#8, 0x50#8, 0x03#8, 0xFF#8] =
      .ok (.finite .positive 999 0) ∧
    canonicalBuffer .decimal32 [0x22#8, 0x50#8, 0x03#8, 0xFF#8] = false := ⟨rfl, rfl, rfl, rfl⟩

/-- A negative infinity: its kind and its sign are both set. -/
theorem witness_DecodedDecimalsSetKindAndSign :
    [0xF8#8, 0x00#8, 0x00#8, 0x00#8].length = Format.decimal32.bytes ∧
    (decodeDecimal State.reset .decimal32 [0xF8#8, 0x00#8, 0x00#8, 0x00#8]).map
      (fun d => (d.kind, d.sign)) = .ok (.negativeInfinity, .negative) := ⟨rfl, rfl⟩
/-- A negative zero. -/
theorem witness_DecimalsRoundTrip :
    ({ sign := .negative, coefficient := 0, exponent := 0, kind := .finite } : Decimal).value.fits
      .decimal32 = true := by decide
/-- Seven different digits, at the largest exponent. -/
theorem witness_FiniteEncodingsHoldTheirFieldsInPlace :
    9876543 < 10 ^ Format.decimal32.digits ∧ 191 ≤ Format.decimal32.elimit := by decide
theorem witness_DecodedValuesReadTheirFieldsInPlace :
    [0x22#8, 0x50#8, 0x03#8, 0xFF#8].length = Format.decimal32.bytes := by decide
/-- `78 00 00 00` and `78 00 00 01` for the first clause and the third; `7C 00 00 FF` and `7C 10 03 FF`, a non-canonical declet and an ignored head bit, for the second. -/
theorem witness_IgnoredBitsCannotReachTheDecimal :
    ([0x78#8, 0x00#8, 0x00#8, 0x00#8].length = Format.decimal32.bytes ∧
      [0x78#8, 0x00#8, 0x00#8, 0x01#8].length = Format.decimal32.bytes ∧
      wordOfBytes [0x78#8, 0x00#8, 0x00#8, 0x00#8] / 2 ^ 26 =
        wordOfBytes [0x78#8, 0x00#8, 0x00#8, 0x01#8] / 2 ^ 26 ∧
      wordOfBytes [0x78#8, 0x00#8, 0x00#8, 0x00#8] / 2 ^ 26 % 32 = 30 ∧
      decodeBuffer State.reset .decimal32 [0x78#8, 0x00#8, 0x00#8, 0x00#8] =
        decodeBuffer State.reset .decimal32 [0x78#8, 0x00#8, 0x00#8, 0x01#8]) ∧
    (wordOfBytes [0x7C#8, 0x00#8, 0x00#8, 0xFF#8] / 2 ^ 25 =
        wordOfBytes [0x7C#8, 0x10#8, 0x03#8, 0xFF#8] / 2 ^ 25 ∧
      wordOfBytes [0x7C#8, 0x00#8, 0x00#8, 0xFF#8] / 2 ^ 26 % 32 = 31 ∧
      trailingNumber .decimal32 (wordOfBytes [0x7C#8, 0x00#8, 0x00#8, 0xFF#8]) =
        trailingNumber .decimal32 (wordOfBytes [0x7C#8, 0x10#8, 0x03#8, 0xFF#8])) :=
  ⟨⟨rfl, rfl, by decide, by decide, rfl⟩, by decide, by decide, by decide⟩

end Sys2Proof.Tests
end

/-! PROOFS. The bytes of the encoding word: what one byte of a buffer is in the word read from it, and that writing the word back gives the buffer (20_memory.md rule R52). -/

namespace Sys2Proof

theorem Format.bits_eq_eight_mul_bytes (F : Format) : F.bits = 8 * F.bytes := by
  cases F <;> rfl

end Sys2Proof

namespace Sys2Proof.Machine

/-- The last byte of a buffer is the least significant one of its word. -/
@[simp] theorem wordOfBytes_concat (buf : Buffer) (b : Byte) :
    wordOfBytes (buf ++ [b]) = wordOfBytes buf * 2 ^ 8 + b.toNat := by
  simp [wordOfBytes]

/-- Byte `j` of the word, counted from the least significant one, stands `j` places before the buffer's end. -/
theorem memRead_fromEnd (buf : Buffer) (j : Nat) (hj : j < buf.length) :
    memRead buf (buf.length - 1 - j) = some (BitVec.ofNat 8 (wordOfBytes buf / 2 ^ (8 * j))) := by
  induction buf using List.reverseRecOn generalizing j with
  | nil => exact absurd hj (Nat.not_lt_zero j)
  | append_singleton buf b ih =>
    cases j with
    | zero =>
      have hlow : BitVec.ofNat 8 (wordOfBytes buf * 2 ^ 8 + b.toNat) = b :=
        BitVec.eq_of_toNat_eq (by simpa using b.isLt)
      rw [Nat.mul_zero, pow_zero, Nat.div_one, wordOfBytes_concat, hlow]
      simp [memRead]
    | succ j =>
      have hj' : j < buf.length := by simpa using hj
      have hshift : (wordOfBytes buf * 2 ^ 8 + b.toNat) / 2 ^ (8 * (j + 1)) =
          wordOfBytes buf / 2 ^ (8 * j) := by
        have hb : (wordOfBytes buf * 2 ^ 8 + b.toNat) / 2 ^ 8 = wordOfBytes buf := by omega
        rw [Nat.mul_succ, Nat.add_comm (8 * j), pow_add, ← Nat.div_div_eq_div_mul, hb]
      have hindex : (buf ++ [b]).length - 1 - (j + 1) = buf.length - 1 - j := by
        rw [List.length_append, List.length_singleton]; omega
      rw [hindex, wordOfBytes_concat, hshift, ← ih j hj']
      exact List.getElem?_append_left (by omega)

/-- Bit `k` of the word is bit `k mod 8` of the byte that holds it. -/
theorem testBit_wordOfBytes (buf : Buffer) (k : Nat) (hk : k < 8 * buf.length) :
    some ((wordOfBytes buf).testBit k) =
      (memRead buf (buf.length - 1 - k / 8)).map fun b => b.getLsbD (k % 8) := by
  have hbit : 8 * (k / 8) + k % 8 = k := Nat.div_add_mod k 8
  have hlt : k % 8 < 8 := Nat.mod_lt k (by decide)
  rw [memRead_fromEnd buf (k / 8) (by omega)]
  simp only [Option.map_some, BitVec.getLsbD_ofNat, Nat.testBit_div_two_pow, hlt, decide_true,
    Bool.true_and, Nat.add_comm (k % 8), hbit]

/-- Writing the word of a buffer gives back that buffer. -/
theorem bytesOfWord_wordOfBytes (F : Format) (buf : Buffer) (hlen : buf.length = F.bytes) :
    bytesOfWord F (wordOfBytes buf) = buf := by
  apply List.ext_getElem
  · simp [bytesOfWord, hlen]
  · intro i _ hi
    have hread := memRead_fromEnd buf (buf.length - 1 - i) (by omega)
    have hindex : buf.length - 1 - (buf.length - 1 - i) = i := by omega
    have hexp : F.bits - 8 - 8 * i = 8 * (buf.length - 1 - i) := by
      rw [Format.bits_eq_eight_mul_bytes, hlen]; omega
    rw [hindex, memRead, List.getElem?_eq_getElem hi, Option.some_inj] at hread
    simp [bytesOfWord, hexp, hread]

/-- Settles O46: bit by bit from the place of each byte in the word, and byte by byte for the write-back. -/
theorem buffersAreBigEndian : Obligations.BuffersAreBigEndian := by
  intro F buf hlen
  refine ⟨fun k hk => ?_, bytesOfWord_wordOfBytes F buf hlen⟩
  rw [← hlen]
  exact testBit_wordOfBytes buf k (by rw [hlen, ← Format.bits_eq_eight_mul_bytes]; exact hk)

end Sys2Proof.Machine

/-! PROOFS. The decoder undoes the encoder, so each row of the command map is the command its instruction encodes to (30_encoding.md rules R70 to R72). -/

namespace Sys2Proof

/-- Rule R70's `cmd = op ‖ fmt`: an operation of the DPD codec keeps its `fmt` field through its command; the others have one command each. -/
@[simp] theorem decode_encode (i : Instr) : decode (encode i) = i := by
  cases i with
  | dpdEnc fmt | dpdDec fmt =>
    have hfmt (op : BitVec 2) : BitVec.extractLsb' 0 2 (op ++ fmt : Cmd) = fmt :=
      BitVec.extractLsb'_append_eq_right
    simp only [encode, decode, BitVec.getLsbD_append, hfmt]
    rfl
  | cfPack32 | cfPack64 | cfPack128 | reservedPack => rfl
  | cfUnpack32 | cfUnpack64 | cfUnpack128 | reservedUnpack => rfl

/-- Settles O3: each value of `cmd` is the command of the instruction its row names, and the decoder undoes the encoder. -/
theorem commandMapOfTheSixteenValues : Obligations.CommandMapOfTheSixteenValues :=
  ⟨decode_encode (.dpdEnc 0b00#2), decode_encode (.dpdEnc 0b01#2),
    decode_encode (.dpdEnc 0b10#2), decode_encode (.dpdEnc 0b11#2),
    decode_encode (.dpdDec 0b00#2), decode_encode (.dpdDec 0b01#2),
    decode_encode (.dpdDec 0b10#2), decode_encode (.dpdDec 0b11#2),
    decode_encode .cfPack32, decode_encode .cfPack64, decode_encode .cfPack128,
    decode_encode .reservedPack,
    decode_encode .cfUnpack32, decode_encode .cfUnpack64, decode_encode .cfUnpack128,
    decode_encode .reservedUnpack⟩

end Sys2Proof

/-! PROOFS. The two DPD tables as arithmetic: a nibble and a declet read as numbers bit by bit, each row of the tables on those numbers, and what `DPD.ENC` and `DPD.DEC` drive (40_dpd_codec.md rules R111, R112, R114, R115). -/

namespace Sys2Proof.Machine

/-! ### Bits as numbers -/

/-- A bit read as a number. -/
theorem toNat_getLsbD {n : Nat} (x : BitVec n) (i : Nat) :
    (x.getLsbD i).toNat = x.toNat / 2 ^ i % 2 :=
  Nat.toNat_testBit x.toNat i

theorem nibbleOfBits_toNat (b3 b2 b1 b0 : Bool) :
    (nibbleOfBits b3 b2 b1 b0).toNat = 8 * b3.toNat + 4 * b2.toNat + 2 * b1.toNat + b0.toNat := by
  simp only [nibbleOfBits, BitVec.ofBoolListBE, BitVec.toNat_cons', List.length_cons,
    List.length_nil, Nat.shiftLeft_eq, BitVec.toNat_zero]
  omega

theorem decletOfBits_toNat (p q r s t u v w x y : Bool) :
    (decletOfBits p q r s t u v w x y).toNat =
      512 * p.toNat + 256 * q.toNat + 128 * r.toNat + 64 * s.toNat + 32 * t.toNat +
        16 * u.toNat + 8 * v.toNat + 4 * w.toNat + 2 * x.toNat + y.toNat := by
  simp only [decletOfBits, BitVec.ofBoolListBE, BitVec.toNat_cons', List.length_cons,
    List.length_nil, Nat.shiftLeft_eq, BitVec.toNat_zero]
  omega

theorem triadOf_toNat (d2 d1 d0 : Nibble) :
    (triadOf d2 d1 d0).toNat = 256 * d2.toNat + 16 * d1.toNat + d0.toNat := by
  rw [triadOf, BitVec.toNat_append, BitVec.toNat_append, ← Nat.shiftLeft_add_eq_or_of_lt d1.isLt,
    ← Nat.shiftLeft_add_eq_or_of_lt d0.isLt, Nat.shiftLeft_eq, Nat.shiftLeft_eq]
  omega

/-! ### The digits of a triad -/

@[simp] theorem digit2_triadOf (d2 d1 d0 : Nibble) : digit2 (triadOf d2 d1 d0) = d2 := by
  apply BitVec.eq_of_toNat_eq
  rw [digit2, BitVec.extractLsb'_toNat, triadOf_toNat, Nat.shiftRight_eq_div_pow]
  omega

@[simp] theorem digit1_triadOf (d2 d1 d0 : Nibble) : digit1 (triadOf d2 d1 d0) = d1 := by
  apply BitVec.eq_of_toNat_eq
  rw [digit1, BitVec.extractLsb'_toNat, triadOf_toNat, Nat.shiftRight_eq_div_pow]
  omega

@[simp] theorem digit0_triadOf (d2 d1 d0 : Nibble) : digit0 (triadOf d2 d1 d0) = d0 := by
  apply BitVec.eq_of_toNat_eq
  rw [digit0, BitVec.extractLsb'_toNat, triadOf_toNat, Nat.shiftRight_eq_div_pow]
  omega

/-- A triad is legal when no nibble is above 9 (60_exceptions.md rule R216). -/
theorem legalTriad_triadOf (d2 d1 d0 : Nibble) :
    legalTriad (triadOf d2 d1 d0) = true ↔ d2.toNat ≤ 9 ∧ d1.toNat ≤ 9 ∧ d0.toNat ≤ 9 := by
  simp [legalTriad, isDigit, and_assoc]

/-! ### The encoding table -/

/-- The top bit of a nibble says whether the digit is large: 8 or 9. -/
theorem nibble_getLsbD_three (d : Nibble) : d.getLsbD 3 = !decide (d.toNat < 8) := by
  revert d; decide

/-- The encoding table is its arithmetic form, in each of the eight rows of rule R111 on which digits are large. -/
theorem dpdTable_triadOf_toNat {d2 d1 d0 : Nibble} (h2 : d2.toNat ≤ 9) (h1 : d1.toNat ≤ 9)
    (h0 : d0.toNat ≤ 9) :
    (dpdTable (triadOf d2 d1 d0)).toNat = decletNumber d2.toNat d1.toNat d0.toNat := by
  simp only [dpdTable, triadOf, BitVec.getLsbD_append, Nat.reduceLT, Nat.reduceSub, if_true,
    if_false, nibble_getLsbD_three, decletNumber]
  -- One goal per row: the selecting bits are known there, and both sides are sums over the digits' other bits.
  split_ifs
  all_goals
    simp only [*, decide_true, decide_false, Bool.not_true, Bool.not_false, decletOfBits_toNat,
      toNat_getLsbD, Bool.toNat_true, Bool.toNat_false, Nat.reducePow]
    omega

/-- `DPD.ENC` on its operand, digit by digit: `InvalidDigit` before anything else (rule R112). -/
theorem dpdEncode_triadOf (d2 d1 d0 : Nibble) :
    dpdEncode (triadOf d2 d1 d0) =
      if 9 < d2.toNat ∨ 9 < d1.toNat ∨ 9 < d0.toNat then .error .invalidDigit
      else .ok (BitVec.ofNat 10 (decletNumber d2.toNat d1.toNat d0.toNat)) := by
  by_cases hlegal : legalTriad (triadOf d2 d1 d0) = true
  · obtain ⟨h2, h1, h0⟩ := (legalTriad_triadOf d2 d1 d0).mp hlegal
    rw [dpdEncode, if_pos hlegal, if_neg (by omega), ← dpdTable_triadOf_toNat h2 h1 h0,
      BitVec.ofNat_toNat, BitVec.setWidth_eq]
  · rw [dpdEncode, if_neg hlegal, if_pos]
    rw [legalTriad_triadOf] at hlegal
    omega

/-- Settles O7: the answer to a driven triad, with the encoder on it digit by digit. -/
theorem dpdEncDrivesTheDeclet : Obligations.DpdEncDrivesTheDeclet := by
  intro fmt s d2 d1 d0 hbcd
  rw [exec_dpdEnc_of_bcd fmt s (triadOf d2 d1 d0) hbcd, dpdEncode_triadOf]
  split_ifs <;> rfl

/-! ### The decoding table -/

/-- The slices of a declet that the decoding table reads, bit by bit. -/
theorem declet_slices (n : Declet) :
    n.toNat / 128 % 8 =
      4 * (n.getLsbD 9).toNat + 2 * (n.getLsbD 8).toNat + (n.getLsbD 7).toNat ∧
    n.toNat / 16 % 8 =
      4 * (n.getLsbD 6).toNat + 2 * (n.getLsbD 5).toNat + (n.getLsbD 4).toNat ∧
    n.toNat % 8 = 4 * (n.getLsbD 2).toNat + 2 * (n.getLsbD 1).toNat + (n.getLsbD 0).toNat ∧
    n.toNat / 256 % 4 = 2 * (n.getLsbD 9).toNat + (n.getLsbD 8).toNat ∧
    n.toNat / 32 % 4 = 2 * (n.getLsbD 6).toNat + (n.getLsbD 5).toNat ∧
    n.toNat / 2 % 4 = 2 * (n.getLsbD 2).toNat + (n.getLsbD 1).toNat ∧
    n.toNat / 128 % 2 = (n.getLsbD 7).toNat ∧
    n.toNat / 16 % 2 = (n.getLsbD 4).toNat ∧
    n.toNat / 8 % 2 = (n.getLsbD 3).toNat ∧
    n.toNat % 2 = (n.getLsbD 0).toNat := by
  simp only [toNat_getLsbD]
  omega

/-- The decoding table drives the digits of its arithmetic form, in each of the eight rows of rule R114. -/
theorem dpdDecode_eq_triadOf (n : Declet) : ∃ d2 d1 d0 : Nibble,
    dpdDecode n = triadOf d2 d1 d0 ∧ triadNumbers n.toNat = (d2.toNat, d1.toNat, d0.toNat) := by
  obtain ⟨hpqr, hstu, hwxy, hpq, hst, hwx, hr, hu, hv, hy⟩ := declet_slices n
  simp only [dpdDecode, triadNumbers, hpqr, hstu, hwxy, hpq, hst, hwx, hr, hu, hv, hy]
  match n.getLsbD 3, n.getLsbD 2, n.getLsbD 1, n.getLsbD 6, n.getLsbD 5 with
  | false, _, _, _, _ => exact ⟨_, _, _, rfl, by simp [nibbleOfBits_toNat]⟩
  | true, false, false, _, _ => exact ⟨_, _, _, rfl, by simp [nibbleOfBits_toNat]⟩
  | true, false, true, _, _ =>
    exact ⟨_, _, _, rfl, by simp [nibbleOfBits_toNat, Nat.mul_add, ← Nat.mul_assoc]⟩
  | true, true, false, _, _ =>
    exact ⟨_, _, _, rfl, by simp [nibbleOfBits_toNat, Nat.mul_add, ← Nat.mul_assoc]⟩
  | true, true, true, false, false =>
    exact ⟨_, _, _, rfl, by simp [nibbleOfBits_toNat, Nat.mul_add, ← Nat.mul_assoc]⟩
  | true, true, true, false, true =>
    exact ⟨_, _, _, rfl, by simp [nibbleOfBits_toNat, Nat.mul_add, ← Nat.mul_assoc]⟩
  | true, true, true, true, false => exact ⟨_, _, _, rfl, by simp [nibbleOfBits_toNat]⟩
  | true, true, true, true, true => exact ⟨_, _, _, rfl, by simp [nibbleOfBits_toNat]⟩

/-- Settles O8: the answer to a driven declet, with the digits of the decoding table glued. -/
theorem dpdDecDrivesTheTriad : Obligations.DpdDecDrivesTheTriad := by
  intro fmt s w hw
  obtain ⟨d2, d1, d0, htriad, hnumbers⟩ := dpdDecode_eq_triadOf w
  rw [exec_dpdDec_of_declet fmt s w hw, htriad, hnumbers, ← triadOf_toNat, BitVec.ofNat_toNat,
    BitVec.setWidth_eq, State.drive]

end Sys2Proof.Machine

/-! PROOFS. The combination field: the packer's checks and the head of each operand as slices of the ports, the unpacker by the table of the 32 combination values, and the sign bit through both (41_combination_field.md rules R142 to R146, R150, R153 to R155, R162). -/

namespace Sys2Proof.Machine

/-! ### The packer's checks -/

/-- Read as unsigned, a negative exponent lies above every format's limit: one comparison checks both bounds. -/
theorem exponentOutOfRange_iff (F : Format) (bexp : BitVec 15) :
    exponentOutOfRange F (signedExponent bexp) = true ↔ F.elimit < bexp.toNat := by
  have hlt := bexp.isLt
  simp only [exponentOutOfRange, signedExponent, BitVec.toInt_eq_toNat_cond]
  cases F <;> simp <;> omega

/-- The limit is `3 * 2^ECB - 1`: an exponent above it has a bit above the two that go to the combination field, or has both of them. -/
theorem elimit_lt_iff_slices (F : Format) (bexp : BitVec 15) :
    F.elimit < bexp.toNat ↔
      bexp.extractLsb' (F.ecb + 2) (13 - F.ecb) ≠ 0 ∨ bexp.extractLsb' F.ecb 2 = 0b11#2 := by
  have hlt := bexp.isLt
  simp only [ne_eq, ← BitVec.toNat_inj, BitVec.extractLsb'_toNat, Nat.shiftRight_eq_div_pow]
  cases F <;> simp <;> omega

theorem signedExponent_of_le_elimit {F : Format} {bexp : BitVec 15} (h : bexp.toNat ≤ F.elimit) :
    signedExponent bexp = bexp.toNat := by
  have hmax : F.elimit ≤ 12287 := by cases F <;> decide
  exact BitVec.toInt_eq_toNat_of_lt (by omega)

/-- The packer on a finite operand: its two checks in the order of rule R146, and its exponent arithmetic as slices. -/
theorem packFinite_eq (F : Format) (sign : BitVec 1) (bexp : BitVec 15) (lead : Nibble) :
    packFinite F sign bexp lead =
      if F.elimit < bexp.toNat then .error (.overflow F (signedExponent bexp))
      else if 9 < lead.toNat then .error .invalidDigit
      else .ok (joinHead F sign (finiteComb (bexp.extractLsb' F.ecb 2) lead)
        (bexp.extractLsb' 0 F.ecb)) := by
  have hdigit : isDigit lead = true ↔ ¬ 9 < lead.toNat := by simp [isDigit]
  simp only [packFinite, packError, exponentOutOfRange_iff, hdigit]
  by_cases hover : F.elimit < bexp.toNat
  · simp only [if_pos hover]
  by_cases hbad : 9 < lead.toNat
  · simp only [if_neg hover, if_pos hbad, if_neg (not_not_intro hbad)]
  · have hlow : BitVec.ofNat F.ecb (bexp.toNat % 2 ^ F.ecb) = bexp.extractLsb' 0 F.ecb :=
      BitVec.eq_of_toNat_eq (by simp)
    simp only [if_neg hover, if_neg hbad, if_pos hbad,
      signedExponent_of_le_elimit (Nat.le_of_not_lt hover), Int.toNat_natCast, hlow,
      ← Nat.shiftRight_eq_div_pow]
    rfl

/-! ### The head as glued slices -/

/-- The head on its port: the spare bits, the sign, the combination field and the continuation. -/
theorem joinHead_eq_append (F : Format) (sign : BitVec 1) (comb : BitVec 5) (cont : BitVec F.ecb) :
    joinHead F sign comb cont = (0#(18 - F.headWidth) ++ sign ++ comb ++ cont).setWidth 18 := by
  apply BitVec.eq_of_toNat_eq
  simp only [joinHead, BitVec.toNat_setWidth, BitVec.toNat_append, BitVec.toNat_zero,
    Nat.zero_shiftLeft, Nat.zero_or]

theorem append_smallComb {n : Nat} (x : BitVec n) (hi2 : BitVec 2) (low : BitVec 3) :
    x ++ (hi2 ++ low : BitVec 5) = x ++ hi2 ++ low :=
  BitVec.append_assoc.symm

theorem append_largeComb {n : Nat} (x : BitVec n) (top hi2 : BitVec 2) (low : BitVec 1) :
    x ++ (top ++ hi2 ++ low : BitVec 5) = x ++ top ++ hi2 ++ low := by
  apply BitVec.eq_of_toNat_eq
  simp only [BitVec.toNat_append, Nat.shiftLeft_or_distrib, ← Nat.shiftLeft_add, Nat.or_assoc]

/-- What `CF.PACK` drives, in the bit slices of rules R143 to R145 over the widths of the format. -/
def packedOutputs (F : Format) (sign : BitVec 1) (tag : BitVec 2) (bexp : BitVec 15)
    (lead : Nibble) : Outputs :=
  if tag = 0b00#2 then
    if bexp.extractLsb' (F.ecb + 2) (13 - F.ecb) ≠ 0 ∨ bexp.extractLsb' F.ecb 2 = 0b11#2 then
      { Outputs.zero with err := 1 }
    else if 9 < lead.toNat then { Outputs.zero with err := 2 }
    else if lead.toNat ≤ 7 then
      headOutputs ((0#(18 - F.headWidth) ++ sign ++ bexp.extractLsb' F.ecb 2 ++
        lead.extractLsb' 0 3 ++ bexp.extractLsb' 0 F.ecb).setWidth 18)
    else
      headOutputs ((0#(18 - F.headWidth) ++ sign ++ 0b11#2 ++ bexp.extractLsb' F.ecb 2 ++
        lead.extractLsb' 0 1 ++ bexp.extractLsb' 0 F.ecb).setWidth 18)
  else if tag = 0b01#2 then
    headOutputs ((0#(18 - F.headWidth) ++ sign ++ 0b11110#5 ++ 0#F.ecb).setWidth 18)
  else if tag = 0b10#2 then
    headOutputs ((0#(18 - F.headWidth) ++ sign ++ 0b11111#5 ++ 0#F.ecb).setWidth 18)
  else
    headOutputs ((0#(18 - F.headWidth) ++ sign ++ 0b11111#5 ++
      BitVec.ofNat F.ecb (2 ^ (F.ecb - 1))).setWidth 18)

/-- A finite operand: an error by one of the two checks, or the slices of a small or of a large digit. -/
theorem answer_packFinite (F : Format) (s : State) (sign : BitVec 1) (bexp : BitVec 15)
    (lead : Nibble) :
    s.answer ((packFinite F sign bexp lead).map headOutputs) =
      s.drive (packedOutputs F sign 0b00#2 bexp lead) := by
  simp only [packFinite_eq, packedOutputs, finiteComb, joinHead_eq_append, ← elimit_lt_iff_slices,
    if_true]
  split_ifs
  · rfl
  · rfl
  · rw [append_smallComb]; rfl
  · rw [append_largeComb]; rfl

/-- A special tag: the combination field and the continuation that rule R142 gives each. -/
theorem headOutputs_packSpecial (F : Format) (sign : BitVec 1) (tag : BitVec 2) (bexp : BitVec 15)
    (lead : Nibble) (hspecial : tag ≠ 0b00#2) :
    headOutputs (packSpecial F sign (tagOfBits tag)) = packedOutputs F sign tag bexp lead := by
  have htag : tag = 0b01#2 ∨ tag = 0b10#2 ∨ tag = 0b11#2 := by revert tag; decide
  simp only [packSpecial, joinHead_eq_append]
  obtain rfl | rfl | rfl := htag <;> rfl

theorem tagOfBits_eq_finite (tag : BitVec 2) : tagOfBits tag = .finite ↔ tag = 0b00#2 := by
  revert tag; decide

/-- `CF.PACK` with every operand port driven. -/
theorem packPorts_of_driven (F : Format) (s : State) (sign : BitVec 1) (tag : BitVec 2)
    (bexp : BitVec 15) (lead : Nibble) (hs : s.inp.sign = some sign) (ht : s.inp.tag = some tag)
    (hb : s.inp.bexp = some bexp) (hl : s.inp.lead = some lead) :
    packPorts F s = .next (s.drive (packedOutputs F sign tag bexp lead)) := by
  by_cases hfinite : tag = 0b00#2
  · subst hfinite
    rw [packPorts_of_finite F s sign 0b00#2 bexp lead hs ht rfl hb hl, answer_packFinite]
  · rw [packPorts_of_special F s sign tag hs ht (mt (tagOfBits_eq_finite tag).mp hfinite),
      headOutputs_packSpecial F sign tag bexp lead hfinite]

/-- Settles O16: the slices over the widths of the format, at `decimal32`. -/
theorem cfPack32DrivesTheHead : Obligations.CfPack32DrivesTheHead :=
  packPorts_of_driven .decimal32

/-- Settles O17: the slices over the widths of the format, at `decimal64`. -/
theorem cfPack64DrivesTheHead : Obligations.CfPack64DrivesTheHead :=
  packPorts_of_driven .decimal64

/-- Settles O18: the slices at `decimal128`, where one bit stands above the exponent's 14 and the port has no spare bits. -/
theorem cfPack128DrivesTheHead : Obligations.CfPack128DrivesTheHead := by
  intro s sign tag bexp lead hs ht hb hl
  have htop : bexp.getLsbD 14 = true ↔ bexp.extractLsb' 14 1 ≠ 0 := by
    rw [ne_eq, ← BitVec.toNat_inj, BitVec.extractLsb'_toNat, BitVec.getLsbD,
      Nat.testBit_eq_decide_div_mod_eq, Nat.shiftRight_eq_div_pow, decide_eq_true_iff]
    simp
  have hspare : 0#(18 - Format.decimal128.headWidth) ++ sign = sign :=
    BitVec.zero_width_append 0#0 sign
  simp only [htop]
  refine (packPorts_of_driven .decimal128 s sign tag bexp lead hs ht hb hl).trans ?_
  simp only [packedOutputs, hspare]
  rfl

/-! ### The unpacker -/

/-- The upper bits are 11 for the large digits and the special values. -/
theorem comb_top_eq_iff (comb : BitVec 5) :
    comb.extractLsb' 3 2 = 0b11#2 ↔ ¬ comb.toNat < 24 := by
  revert comb; decide

/-- Of the values from 24 on, the next two bits are 11 for the special ones. -/
theorem comb_middle_eq_iff {comb : BitVec 5} (h : ¬ comb.toNat < 24) :
    comb.extractLsb' 1 2 = 0b11#2 ↔ ¬ comb.toNat < 30 := by
  revert comb; decide

/-- The two special values differ in the lowest bit. -/
theorem comb_low_eq_iff {comb : BitVec 5} (h : ¬ comb.toNat < 30) :
    comb.getLsbD 0 = false ↔ comb.toNat = 30 := by
  revert comb; decide

/-- The exponent bits and the digit of a small digit's combination field. -/
theorem comb_small_fields {comb : BitVec 5} (h : comb.toNat < 24) :
    (comb.extractLsb' 3 2).toNat = comb.toNat / 8 ∧
      0b0#1 ++ comb.extractLsb' 0 3 = BitVec.ofNat 4 (comb.toNat % 8) := by
  revert comb; decide

/-- The exponent bits and the digit of a large digit's combination field. -/
theorem comb_large_fields {comb : BitVec 5} (h : ¬ comb.toNat < 24) :
    (comb.extractLsb' 1 2).toNat = (comb.toNat - 24) / 2 ∧
      0b100#3 ++ comb.extractLsb' 0 1 = BitVec.ofNat 4 (8 + comb.toNat % 2) := by
  revert comb; decide

/-- The quiet/signaling bit is the top one of the continuation. -/
theorem cont_quiet_iff (F : Format) (cont : BitVec F.ecb) :
    cont.getLsbD (F.ecb - 1) = false ↔ 2 * cont.toNat < 2 ^ F.ecb := by
  rw [← BitVec.msb_eq_getLsbD_last, BitVec.msb_eq_false_iff_two_mul_lt]

/-- The unpacker by the table of the 32 combination values. -/
theorem unpackHead_outputs (F : Format) (h : Head) :
    (unpackHead F h).outputs =
      reportedFields (headSign F h) (headComb F h).toNat (headCont F h).toNat (2 ^ F.ecb) := by
  simp only [unpackHead, reportedFields, ne_eq, comb_top_eq_iff, not_not, cont_quiet_iff]
  generalize headComb F h = comb
  by_cases hsmall : comb.toNat < 24
  · obtain ⟨hhi, hlead⟩ := comb_small_fields hsmall
    simp only [if_pos hsmall, assembleExponent, hhi, hlead]
    rfl
  simp only [if_neg hsmall, comb_middle_eq_iff hsmall, not_not]
  by_cases hlarge : comb.toNat < 30
  · obtain ⟨hhi, hlead⟩ := comb_large_fields hsmall
    simp only [if_pos hlarge, assembleExponent, hhi, hlead]
    rfl
  simp only [if_neg hlarge, comb_low_eq_iff hlarge]
  split_ifs <;> rfl

/-- `CF.UNPACK` with its operand port driven. -/
theorem unpackPorts_of_driven (F : Format) (s : State) (h : Head) (hh : s.inp.head = some h) :
    unpackPorts F s = .next (s.drive
      (reportedFields (headSign F h) (headComb F h).toNat (headCont F h).toNat (2 ^ F.ecb))) := by
  rw [unpackPorts_of_head F s h hh, unpackHead_outputs]

/-- Settles O21: the fields of the head are the slices of rule R153. -/
theorem cfUnpack32ReportsTheFields : Obligations.CfUnpack32ReportsTheFields :=
  unpackPorts_of_driven .decimal32

/-- Settles O22: the fields of the head are the slices of rule R154. -/
theorem cfUnpack64ReportsTheFields : Obligations.CfUnpack64ReportsTheFields :=
  unpackPorts_of_driven .decimal64

/-- Settles O23: the fields of the head are the slices of rule R155. -/
theorem cfUnpack128ReportsTheFields : Obligations.CfUnpack128ReportsTheFields :=
  unpackPorts_of_driven .decimal128

/-! ### The sign bit -/

/-- A packer that answers a head for a finite operand has put the sign on top of it. -/
theorem headSign_of_packFinite {F : Format} {sign : BitVec 1} {bexp : BitVec 15} {lead : Nibble}
    {h : Head} (hpack : packFinite F sign bexp lead = .ok h) : headSign F h = sign := by
  rw [packFinite_eq] at hpack
  split_ifs at hpack
  obtain rfl := Except.ok.inj hpack
  exact headSign_joinHead ..

theorem headSign_packSpecial (F : Format) (sign : BitVec 1) (tag : Tag) :
    headSign F (packSpecial F sign tag) = sign :=
  headSign_joinHead ..

theorem reportedFields_sign (sign : BitVec 1) (comb cont scale : Nat) :
    (reportedFields sign comb cont scale).sign = sign := by
  unfold reportedFields
  split_ifs <;> rfl

theorem errCode_ne_zero (e : BlockError) : errCode e ≠ 0 := by
  cases e <;> simp [errCode]

/-- `CF.PACK` without an error puts `sign_i` on top of the head, for every tag. -/
theorem headSign_of_packPorts {F : Format} {s t : State} {sign : BitVec 1}
    (hs : s.inp.sign = some sign) (ht : packPorts F s = .next t) (herr : t.out.err = 0) :
    headSign F t.out.head = sign := by
  obtain ⟨sign', tag, hs', -, ⟨-, bexp, lead, -, -, rfl⟩ | ⟨-, rfl⟩⟩ := packPorts_next ht
  all_goals obtain rfl : sign = sign' := Option.some.inj (hs.symm.trans hs')
  · cases hpack : packFinite F sign bexp lead with
    | error e =>
      rw [hpack] at herr
      exact absurd herr (errCode_ne_zero e)
    | ok h => exact headSign_of_packFinite hpack
  · exact headSign_packSpecial F sign (tagOfBits tag)

/-- Settles O28: the packed head's sign and the unpacked one. -/
theorem signBitPassesThrough : Obligations.SignBitPassesThrough := by
  constructor
  · intro F s t sign hs ht herr
    exact headSign_of_packPorts hs (exec_packInstr F s ▸ ht) herr
  · intro F s t h hh ht
    rw [exec_unpackInstr, unpackPorts_of_driven F s h hh] at ht
    obtain rfl := Host.Outcome.next.inj ht
    exact reportedFields_sign ..

end Sys2Proof.Machine

/-! PROOFS. The host's validation of a coefficient, and its `signum` (42_host_composition.md rules R184, R198). -/

namespace Sys2Proof.Machine

/-! ### The largest coefficient -/

/-- `10^DIG` is positive, so the subtraction of naturals in `maxCoefficient` loses nothing. -/
@[simp] theorem natCast_maxCoefficient (F : Format) : (maxCoefficient F : Int) = 10 ^ F.digits - 1 := by
  have hpos : 1 ≤ 10 ^ F.digits := Nat.one_le_pow' _ 9
  rw [maxCoefficient, Nat.cast_sub hpos, Nat.cast_pow, Nat.cast_ofNat, Nat.cast_one]

theorem le_maxCoefficient_iff (F : Format) (c : Nat) :
    c ≤ maxCoefficient F ↔ (c : Int) ≤ 10 ^ F.digits - 1 := by
  rw [← natCast_maxCoefficient, Nat.cast_le]

theorem validateCoefficient_of_le {F : Format} {value : Int} (h : value.natAbs ≤ maxCoefficient F) :
    validateCoefficient F value = .ok value :=
  if_pos h

theorem validateCoefficient_of_not_le {F : Format} {value : Int}
    (h : ¬ value.natAbs ≤ maxCoefficient F) :
    validateCoefficient F value = .error (.coefficientOverflow F value) :=
  if_neg h

/-- Settles O43: the bound `validateCoefficient` compares with is `10^DIG - 1`. -/
theorem coefficientsAreValidatedByMagnitude : Obligations.CoefficientsAreValidatedByMagnitude := by
  intro F value
  rw [← le_maxCoefficient_iff]
  exact ⟨validateCoefficient_of_le, validateCoefficient_of_not_le⟩

/-! ### The sign of a `signum` -/

@[simp] theorem signumIsPositive_iff (n : Int) : signumIsPositive n = true ↔ n = 1 := beq_iff_eq

@[simp] theorem signumIsNegative_iff (n : Int) : signumIsNegative n = true ↔ n = -1 := beq_iff_eq

theorem signOfSignum_eq_none {n : Int} (hpos : n ≠ 1) (hneg : n ≠ -1) : signOfSignum n = none := by
  rw [signOfSignum, if_neg (mt (signumIsPositive_iff n).mp hpos),
    if_neg (mt (signumIsNegative_iff n).mp hneg)]

/-- Settles O44: each test is one comparison, so a value that fails both has no sign; the rest is evaluated. -/
theorem signumIsNoPartition : Obligations.SignumIsNoPartition := fun n =>
  ⟨signumIsPositive_iff n, signumIsNegative_iff n, signOfSignum_eq_none, rfl, rfl, rfl, rfl⟩

end Sys2Proof.Machine

/-! PROOFS. The errors of the block: where each one comes from, that a step answers an error exactly where one of these sources stands, and what the answer then is (60_exceptions.md rules R214 to R217). -/

namespace Sys2Proof.Machine

/-! ### The sources of the errors -/

/-- Which error an instruction raises on the ports of a state: every source that rules R215 to R217 name, one constructor each. `exec_eq_raise` and `exec_next_cases` tie it to `exec`. -/
inductive Raises (s : State) : Instr → BlockError → Prop where
  /-- R215: a finite `CF.PACK` with its signed exponent out of range. -/
  | overflow {F : Format} {bexp : BitVec 15} (htag : s.inp.tag = some 0b00#2)
      (hbexp : s.inp.bexp = some bexp)
      (hrange : bexp.toInt < 0 ∨ (F.elimit : Int) < bexp.toInt) :
      Raises s (packInstr F) (.overflow F bexp.toInt)
  /-- R216: a finite `CF.PACK` with its exponent in range and no digit on `lead_i`. -/
  | packDigit {F : Format} {bexp : BitVec 15} {lead : Nibble} (htag : s.inp.tag = some 0b00#2)
      (hbexp : s.inp.bexp = some bexp) (hlead : s.inp.lead = some lead)
      (hnonneg : 0 ≤ bexp.toInt) (hle : bexp.toInt ≤ (F.elimit : Int)) (hdigit : 9 < lead.toNat) :
      Raises s (packInstr F) .invalidDigit
  /-- R216: a `DPD.ENC` with a nibble that is no digit. -/
  | encDigit {fmt : BitVec 2} {bcd : Triad} (hbcd : s.inp.bcd = some bcd)
      (hdigit : 9 < (bcd.extractLsb' 8 4).toNat ∨ 9 < (bcd.extractLsb' 4 4).toNat ∨
        9 < (bcd.extractLsb' 0 4).toNat) :
      Raises s (.dpdEnc fmt) .invalidDigit
  /-- R217: command `1011`. -/
  | reservedPack : Raises s .reservedPack .invalidFormat
  /-- R217: command `1111`. -/
  | reservedUnpack : Raises s .reservedUnpack .invalidFormat

/-! ### The checks of the two meanings that can fail -/

theorem isDigit_iff (n : Nibble) : isDigit n = true ↔ ¬ 9 < n.toNat := by
  rw [isDigit, decide_eq_true_iff, not_lt]

/-- A triad is legal when none of its nibbles is above 9. -/
theorem legalTriad_iff (bcd : Triad) :
    legalTriad bcd = true ↔
      ¬ (9 < (bcd.extractLsb' 8 4).toNat ∨ 9 < (bcd.extractLsb' 4 4).toNat ∨
        9 < (bcd.extractLsb' 0 4).toNat) := by
  simp only [legalTriad, Bool.and_eq_true, isDigit_iff, not_or, and_assoc, digit2, digit1, digit0]

/-- The check of `DPD.ENC`, on the three nibbles of its port. -/
theorem dpdEncode_eq_error_iff (bcd : Triad) (e : BlockError) :
    dpdEncode bcd = .error e ↔ e = .invalidDigit ∧
      (9 < (bcd.extractLsb' 8 4).toNat ∨ 9 < (bcd.extractLsb' 4 4).toNat ∨
        9 < (bcd.extractLsb' 0 4).toNat) := by
  rw [dpdEncode]
  split_ifs with hlegal
  · have hdigits := (legalTriad_iff bcd).mp hlegal
    simp only [hdigits, and_false]
  · have hdigit := not_not.mp (mt (legalTriad_iff bcd).mpr hlegal)
    simp only [Except.error.injEq, hdigit, and_true, eq_comm]

/-- The two checks of a finite `CF.PACK`: the digit is looked at only where the exponent is in range. -/
theorem packError_eq_some_iff (F : Format) (be : Int) (lead : Nibble) (e : BlockError) :
    packError F be lead = some e ↔
      (e = .overflow F be ∧ (be < 0 ∨ (F.elimit : Int) < be)) ∨
        (e = .invalidDigit ∧ 0 ≤ be ∧ be ≤ (F.elimit : Int) ∧ 9 < lead.toNat) := by
  simp only [packError, exponentOutOfRange, isDigit_iff, decide_eq_true_iff]
  split_ifs with hrange hdigit
  · have hin : ¬ (0 ≤ be ∧ be ≤ (F.elimit : Int) ∧ 9 < lead.toNat) := by omega
    simp [hrange, hin, eq_comm]
  · have hin : 0 ≤ be ∧ be ≤ (F.elimit : Int) ∧ 9 < lead.toNat := by omega
    simp [hrange, hin, eq_comm]
  · simp [hrange, hdigit]

/-- The packer fails by its checks alone. -/
theorem packFinite_eq_error_iff (F : Format) (sign : BitVec 1) (bexp : BitVec 15) (lead : Nibble)
    (e : BlockError) :
    packFinite F sign bexp lead = .error e ↔ packError F bexp.toInt lead = some e := by
  simp only [packFinite, signedExponent]
  cases packError F bexp.toInt lead <;> simp

/-! ### The answer where an error is raised, and where none is -/

/-- With the finite tag on its port, `CF.PACK` answers what the packer makes of the exponent and the digit. -/
theorem packPorts_next_of_finite {F : Format} {s t : State} (htag : s.inp.tag = some 0b00#2)
    (h : packPorts F s = .next t) :
    ∃ (sign : BitVec 1) (bexp : BitVec 15) (lead : Nibble), s.inp.bexp = some bexp ∧
      s.inp.lead = some lead ∧ t = s.answer ((packFinite F sign bexp lead).map headOutputs) := by
  obtain ⟨sign, tag, -, htag', ⟨-, bexp, lead, hbexp, hlead, ht⟩ | ⟨hspecial, -⟩⟩ := packPorts_next h
  · exact ⟨sign, bexp, lead, hbexp, hlead, ht⟩
  · obtain rfl : 0b00#2 = tag := Option.some.inj (htag.symm.trans htag')
    exact absurd rfl hspecial

/-- A finite `CF.PACK` whose checks fail, whatever digit they saw, answers their error. -/
theorem packPorts_eq_raise {F : Format} {s t : State} {bexp : BitVec 15} {e : BlockError}
    (htag : s.inp.tag = some 0b00#2) (hbexp : s.inp.bexp = some bexp)
    (herror : ∀ lead, s.inp.lead = some lead → packError F bexp.toInt lead = some e)
    (h : packPorts F s = .next t) : t = s.raise e := by
  obtain ⟨sign, bexp', lead, hbexp', hlead, rfl⟩ := packPorts_next_of_finite htag h
  obtain rfl : bexp = bexp' := Option.some.inj (hbexp.symm.trans hbexp')
  rw [(packFinite_eq_error_iff F sign bexp lead e).mpr (herror lead hlead)]
  rfl

/-- Where a source of an error stands on the ports, an answer of the instruction is that error. -/
theorem exec_eq_raise {i : Instr} {s t : State} {e : BlockError} (hraises : Raises s i e)
    (h : exec i s = .next t) : t = s.raise e := by
  cases hraises with
  | @overflow F bexp htag hbexp hrange =>
    refine packPorts_eq_raise htag hbexp (fun lead _ => ?_) (exec_packInstr F s ▸ h)
    exact (packError_eq_some_iff F bexp.toInt lead _).mpr (.inl ⟨rfl, hrange⟩)
  | @packDigit F bexp lead htag hbexp hlead hnonneg hle hdigit =>
    refine packPorts_eq_raise htag hbexp (fun lead' hlead' => ?_) (exec_packInstr F s ▸ h)
    obtain rfl : lead = lead' := Option.some.inj (hlead.symm.trans hlead')
    exact (packError_eq_some_iff F bexp.toInt lead _).mpr (.inr ⟨rfl, hnonneg, hle, hdigit⟩)
  | @encDigit fmt bcd hbcd hdigit =>
    rw [exec_dpdEnc_of_bcd fmt s bcd hbcd,
      (dpdEncode_eq_error_iff bcd .invalidDigit).mpr ⟨rfl, hdigit⟩] at h
    exact (Host.Outcome.next.inj h).symm
  | reservedPack => exact (Host.Outcome.next.inj h).symm
  | reservedUnpack => exact (Host.Outcome.next.inj h).symm

/-- `CF.PACK` succeeds, or raises an error that has its source on the ports. -/
theorem packPorts_next_cases {F : Format} {s t : State} (h : packPorts F s = .next t) :
    t.out.err = 0 ∨ ∃ e, Raises s (packInstr F) e ∧ t = s.raise e := by
  obtain ⟨sign, tag, -, htag, ⟨hfinite, bexp, lead, hbexp, hlead, rfl⟩ | ⟨-, rfl⟩⟩ := packPorts_next h
  · rw [(tagOfBits_eq_finite tag).mp hfinite] at htag
    cases hpack : packFinite F sign bexp lead with
    | ok head => exact .inl rfl
    | error e =>
      refine .inr ⟨e, ?_, rfl⟩
      obtain ⟨rfl, hrange⟩ | ⟨rfl, hnonneg, hle, hdigit⟩ :=
        (packError_eq_some_iff F bexp.toInt lead e).mp
          ((packFinite_eq_error_iff F sign bexp lead e).mp hpack)
      · exact .overflow htag hbexp hrange
      · exact .packDigit htag hbexp hlead hnonneg hle hdigit
  · exact .inl rfl

theorem unpackPorts_next_err {F : Format} {s t : State} (h : unpackPorts F s = .next t) :
    t.out.err = 0 := by
  obtain ⟨head, -, rfl⟩ := unpackPorts_next h
  rfl

/-- Every instruction that answers succeeds, or raises an error that has its source on the ports. -/
theorem exec_next_cases {i : Instr} {s t : State} (h : exec i s = .next t) :
    t.out.err = 0 ∨ ∃ e, Raises s i e ∧ t = s.raise e := by
  cases i with
  | dpdEnc fmt =>
    obtain ⟨bcd, hbcd, rfl⟩ := exec_dpdEnc_next h
    cases henc : dpdEncode bcd with
    | ok w => exact .inl rfl
    | error e =>
      obtain ⟨rfl, hdigit⟩ := (dpdEncode_eq_error_iff bcd e).mp henc
      exact .inr ⟨.invalidDigit, .encDigit hbcd hdigit, rfl⟩
  | dpdDec fmt =>
    obtain ⟨w, -, rfl⟩ := exec_dpdDec_next h
    exact .inl rfl
  | cfPack32 => exact packPorts_next_cases (F := .decimal32) h
  | cfPack64 => exact packPorts_next_cases (F := .decimal64) h
  | cfPack128 => exact packPorts_next_cases (F := .decimal128) h
  | cfUnpack32 | cfUnpack64 | cfUnpack128 => exact .inl (unpackPorts_next_err h)
  | reservedPack => exact .inr ⟨.invalidFormat, .reservedPack, (Host.Outcome.next.inj h).symm⟩
  | reservedUnpack => exact .inr ⟨.invalidFormat, .reservedUnpack, (Host.Outcome.next.inj h).symm⟩

/-! ### The code on `err_o` -/

theorem errCode_eq_one_iff (e : BlockError) : errCode e = 1 ↔ ∃ F be, e = .overflow F be := by
  cases e <;> simp [errCode]

theorem errCode_eq_two_iff (e : BlockError) : errCode e = 2 ↔ e = .invalidDigit := by
  cases e <;> simp [errCode]

theorem errCode_eq_three_iff (e : BlockError) : errCode e = 3 ↔ e = .invalidFormat := by
  cases e <;> simp [errCode]

/-- A code other than success stands on `err_o` exactly where an error of that code has its source on the ports. -/
theorem exec_err_eq_iff {i : Instr} {s t : State} (h : exec i s = .next t) {code : BitVec 2}
    (hcode : code ≠ 0) : t.out.err = code ↔ ∃ e, Raises s i e ∧ errCode e = code := by
  constructor
  · rintro rfl
    obtain hzero | ⟨e, hraises, rfl⟩ := exec_next_cases h
    · exact absurd hzero hcode
    · exact ⟨e, hraises, rfl⟩
  · rintro ⟨e, hraises, rfl⟩
    rw [exec_eq_raise hraises h, State.raise_out]

/-- Settles O30: of the sources, only a finite pack's exponent check raises code 1. -/
theorem overflowExactlyForExponentsOutOfRange :
    Obligations.OverflowExactlyForExponentsOutOfRange := by
  intro i s t h
  rw [exec_err_eq_iff h (by decide)]
  constructor
  · rintro ⟨e, hraises, hcode⟩
    obtain ⟨F, be, rfl⟩ := (errCode_eq_one_iff e).mp hcode
    cases hraises with
    | overflow htag hbexp hrange => exact ⟨F, _, rfl, htag, hbexp, hrange⟩
  · rintro ⟨F, bexp, rfl, htag, hbexp, hrange⟩
    exact ⟨_, .overflow htag hbexp hrange, rfl⟩

/-- Settles O31: the two sources of code 2, the encoder's nibbles and a finite pack's digit. -/
theorem invalidDigitExactlyForNonDigits : Obligations.InvalidDigitExactlyForNonDigits := by
  intro i s t h
  rw [exec_err_eq_iff h (by decide)]
  constructor
  · rintro ⟨e, hraises, hcode⟩
    obtain rfl := (errCode_eq_two_iff e).mp hcode
    cases hraises with
    | encDigit hbcd hdigit => exact .inl ⟨_, _, rfl, hbcd, hdigit⟩
    | packDigit htag hbexp hlead hnonneg hle hdigit =>
      exact .inr ⟨_, _, _, rfl, htag, hbexp, hlead, hnonneg, hle, hdigit⟩
  · rintro (⟨fmt, bcd, rfl, hbcd, hdigit⟩ |
      ⟨F, bexp, lead, rfl, htag, hbexp, hlead, hnonneg, hle, hdigit⟩)
    · exact ⟨_, .encDigit hbcd hdigit, rfl⟩
    · exact ⟨_, .packDigit htag hbexp hlead hnonneg hle hdigit, rfl⟩

/-- `InvalidFormat` comes from the two reserved instructions, whatever stands on the ports. -/
theorem raises_invalidFormat_iff (s : State) (i : Instr) :
    Raises s i .invalidFormat ↔ i = .reservedPack ∨ i = .reservedUnpack := by
  constructor
  · intro hraises
    cases hraises with
    | reservedPack => exact .inl rfl
    | reservedUnpack => exact .inr rfl
  · rintro (rfl | rfl)
    · exact .reservedPack
    · exact .reservedUnpack

/-- The reserved rows of the command map (30_encoding.md rule R73), by the bits of `cmd`. -/
theorem decode_reserved_iff (cmd : Cmd) :
    decode cmd = .reservedPack ∨ decode cmd = .reservedUnpack ↔
      cmd.getLsbD 3 = true ∧ cmd.extractLsb' 0 2 = 0b11#2 := by
  revert cmd; decide

/-- Settles O32: code 3 comes from the reserved instructions alone, and `decode` finds them by those bits. -/
theorem invalidFormatExactlyForReservedCommands :
    Obligations.InvalidFormatExactlyForReservedCommands := by
  intro s t cmd hcmd h
  rw [step_of_cmd s cmd hcmd] at h
  rw [exec_err_eq_iff h (by decide), ← decode_reserved_iff, ← raises_invalidFormat_iff s]
  simp only [errCode_eq_three_iff, exists_eq_right]

/-- Settles O33: an answer with an error is the one `State.raise` makes, and `DPD.ENC` of three zeros is evaluated. -/
theorem errorsDriveZeroData : Obligations.ErrorsDriveZeroData := by
  constructor
  · intro s t h herr
    obtain ⟨cmd, -, hexec⟩ := readPort_next h
    obtain hzero | ⟨e, -, rfl⟩ := exec_next_cases hexec
    · exact absurd hzero herr
    · rfl
  · intro fmt s hbcd
    rw [exec_dpdEnc_of_bcd fmt s _ hbcd]
    rfl

end Sys2Proof.Machine

/-! PROOFS. The laws of the DPD codec: its two tables undo each other on legal triads and canonical declets, they are the gate equations, and what `DPD.ENC` and `DPD.DEC` then drive (40_dpd_codec.md rules R113, R116 to R119). -/

namespace Sys2Proof.Machine

/-! ### Nibbles, triads and declets by their bits -/

theorem getLsbD_nibbleOfBits (b3 b2 b1 b0 : Bool) :
    (nibbleOfBits b3 b2 b1 b0).getLsbD 3 = b3 ∧ (nibbleOfBits b3 b2 b1 b0).getLsbD 2 = b2 ∧
      (nibbleOfBits b3 b2 b1 b0).getLsbD 1 = b1 ∧ (nibbleOfBits b3 b2 b1 b0).getLsbD 0 = b0 := by
  simp [nibbleOfBits, BitVec.ofBoolListBE, BitVec.getLsbD_cons, -BitVec.getLsbD_eq_getElem]

theorem getLsbD_decletOfBits (p q r s t u v w x y : Bool) :
    (decletOfBits p q r s t u v w x y).getLsbD 9 = p ∧
      (decletOfBits p q r s t u v w x y).getLsbD 8 = q ∧
      (decletOfBits p q r s t u v w x y).getLsbD 7 = r ∧
      (decletOfBits p q r s t u v w x y).getLsbD 6 = s ∧
      (decletOfBits p q r s t u v w x y).getLsbD 5 = t ∧
      (decletOfBits p q r s t u v w x y).getLsbD 4 = u ∧
      (decletOfBits p q r s t u v w x y).getLsbD 3 = v ∧
      (decletOfBits p q r s t u v w x y).getLsbD 2 = w ∧
      (decletOfBits p q r s t u v w x y).getLsbD 1 = x ∧
      (decletOfBits p q r s t u v w x y).getLsbD 0 = y := by
  simp [decletOfBits, BitVec.ofBoolListBE, BitVec.getLsbD_cons, -BitVec.getLsbD_eq_getElem]

theorem getLsbD_triadOf_nibbleOfBits (a b c d e f g h i j k m : Bool) :
    (triadOf (nibbleOfBits a b c d) (nibbleOfBits e f g h) (nibbleOfBits i j k m)).getLsbD 11 = a ∧
    (triadOf (nibbleOfBits a b c d) (nibbleOfBits e f g h) (nibbleOfBits i j k m)).getLsbD 10 = b ∧
    (triadOf (nibbleOfBits a b c d) (nibbleOfBits e f g h) (nibbleOfBits i j k m)).getLsbD 9 = c ∧
    (triadOf (nibbleOfBits a b c d) (nibbleOfBits e f g h) (nibbleOfBits i j k m)).getLsbD 8 = d ∧
    (triadOf (nibbleOfBits a b c d) (nibbleOfBits e f g h) (nibbleOfBits i j k m)).getLsbD 7 = e ∧
    (triadOf (nibbleOfBits a b c d) (nibbleOfBits e f g h) (nibbleOfBits i j k m)).getLsbD 6 = f ∧
    (triadOf (nibbleOfBits a b c d) (nibbleOfBits e f g h) (nibbleOfBits i j k m)).getLsbD 5 = g ∧
    (triadOf (nibbleOfBits a b c d) (nibbleOfBits e f g h) (nibbleOfBits i j k m)).getLsbD 4 = h ∧
    (triadOf (nibbleOfBits a b c d) (nibbleOfBits e f g h) (nibbleOfBits i j k m)).getLsbD 3 = i ∧
    (triadOf (nibbleOfBits a b c d) (nibbleOfBits e f g h) (nibbleOfBits i j k m)).getLsbD 2 = j ∧
    (triadOf (nibbleOfBits a b c d) (nibbleOfBits e f g h) (nibbleOfBits i j k m)).getLsbD 1 = k ∧
    (triadOf (nibbleOfBits a b c d) (nibbleOfBits e f g h) (nibbleOfBits i j k m)).getLsbD 0 =
      m := by
  simp only [triadOf, BitVec.getLsbD_append, getLsbD_nibbleOfBits, Nat.reduceLT, Nat.reduceSub,
    if_true, if_false, and_self]

/-- A declet is its ten bits. -/
theorem decletOfBits_getLsbD (w : Declet) :
    decletOfBits (w.getLsbD 9) (w.getLsbD 8) (w.getLsbD 7) (w.getLsbD 6) (w.getLsbD 5)
      (w.getLsbD 4) (w.getLsbD 3) (w.getLsbD 2) (w.getLsbD 1) (w.getLsbD 0) = w := by
  apply BitVec.eq_of_getLsbD_eq
  intro i hi
  interval_cases i <;> simp only [getLsbD_decletOfBits]

/-- A triad is its three digits. -/
theorem triadOf_digits (t : Triad) : triadOf (digit2 t) (digit1 t) (digit0 t) = t := by
  apply BitVec.eq_of_toNat_eq
  simp only [triadOf_toNat, digit2, digit1, digit0, BitVec.extractLsb'_toNat,
    Nat.shiftRight_eq_div_pow]
  omega

theorem legalTriad_iff_digits (t : Triad) :
    legalTriad t = true ↔
      (digit2 t).toNat ≤ 9 ∧ (digit1 t).toNat ≤ 9 ∧ (digit0 t).toNat ≤ 9 := by
  rw [← legalTriad_triadOf, triadOf_digits]

/-- A digit's two middle bits are 0 where its top bit is 1: it is small, 0 to 7, or large, 8 or 9. -/
theorem digit_bits {n : Nibble} (h : n.toNat ≤ 9) :
    ∃ a b c d, n = nibbleOfBits a (!a && b) (!a && c) d := by
  revert n; decide

theorem legalTriad_bits {t : Triad} (ht : legalTriad t = true) :
    ∃ a b c d e f g h i j k m, t = triadOf (nibbleOfBits a (!a && b) (!a && c) d)
      (nibbleOfBits e (!e && f) (!e && g) h) (nibbleOfBits i (!i && j) (!i && k) m) := by
  obtain ⟨h2, h1, h0⟩ := (legalTriad_iff_digits t).mp ht
  obtain ⟨a, b, c, d, h2⟩ := digit_bits h2
  obtain ⟨e, f, g, h, h1⟩ := digit_bits h1
  obtain ⟨i, j, k, m, h0⟩ := digit_bits h0
  exact ⟨a, b, c, d, e, f, g, h, i, j, k, m, by rw [← h2, ← h1, ← h0, triadOf_digits]⟩

/-! ### The two tables undo each other, and the gates are the tables -/

/-- Law 1 of rule R119: in each row of the encoding table, the decoding table reads the digits back. -/
theorem dpdDecode_dpdTable {t : Triad} (ht : legalTriad t = true) : dpdDecode (dpdTable t) = t := by
  obtain ⟨a, b, c, d, e, f, g, h, i, j, k, m, rfl⟩ := legalTriad_bits ht
  simp only [dpdTable, getLsbD_triadOf_nibbleOfBits]
  match a, e, i with
  | false, false, false | false, false, true | false, true, false | true, false, false
  | true, true, false | true, false, true | false, true, true | true, true, true =>
    simp only [dpdDecode, getLsbD_decletOfBits, Bool.not_true, Bool.not_false, Bool.true_and,
      Bool.false_and]

/-- Rule R113: in each row of the encoding table, the equations give its bits. -/
theorem gateEncode_eq_dpdTable {t : Triad} (ht : legalTriad t = true) :
    gateEncode t = dpdTable t := by
  obtain ⟨a, b, c, d, e, f, g, h, i, j, k, m, rfl⟩ := legalTriad_bits ht
  simp only [dpdTable, gateEncode, getLsbD_triadOf_nibbleOfBits]
  match a, e, i with
  | false, false, false | false, false, true | false, true, false | true, false, false
  | true, true, false | true, false, true | false, true, true | true, true, true => simp

/-- In each row of the decoding table, the encoding table reads the bits back; the last row's two ignored bits come back as 0. -/
theorem dpdTable_dpdDecode_decletOfBits (p q r s t u v w x y : Bool) :
    dpdTable (dpdDecode (decletOfBits p q r s t u v w x y)) =
      if v && w && x && s && t then decletOfBits false false r s t u v w x y
      else decletOfBits p q r s t u v w x y := by
  simp only [dpdDecode, getLsbD_decletOfBits, dpdTable]
  match v, w, x, s, t with
  | false, _, _, _, _ | true, false, false, _, _ | true, false, true, _, _ | true, true, false, _, _
  | true, true, true, false, false | true, true, true, false, true
  | true, true, true, true, false | true, true, true, true, true =>
    simp only [getLsbD_triadOf_nibbleOfBits]
    rfl

/-- Rule R117: in each row of the decoding table, the equations give its bits. -/
theorem gateDecode_eq_dpdDecode (n : Declet) : gateDecode n = dpdDecode n := by
  simp only [gateDecode, dpdDecode]
  match n.getLsbD 3, n.getLsbD 2, n.getLsbD 1, n.getLsbD 6, n.getLsbD 5 with
  | false, w, x, _, t => cases w <;> cases x <;> cases t <;> simp
  | true, true, false, _, t => cases t <;> simp
  | true, false, false, _, _ | true, false, true, _, _
  | true, true, true, false, false | true, true, true, false, true
  | true, true, true, true, false | true, true, true, true, true => simp

/-! ### Canonical declets -/

/-- Rule R118 by bits: a declet is not canonical where it decodes to three large digits and an ignored bit is 1. -/
theorem canonicalDeclet_decletOfBits (p q r s t u v w x y : Bool) :
    canonicalDeclet (decletOfBits p q r s t u v w x y) = !(v && w && x && s && t && (p || q)) := by
  have hthree (z : BitVec 3) : (z == 0b111#3) = (z.getLsbD 2 && z.getLsbD 1 && z.getLsbD 0) := by
    revert z; decide
  have htwo (z : BitVec 2) : (z == 0b11#2) = (z.getLsbD 1 && z.getLsbD 0) := by revert z; decide
  have hzero (z : BitVec 2) : (z != 0b00#2) = (z.getLsbD 1 || z.getLsbD 0) := by revert z; decide
  simp only [canonicalDeclet, hthree, htwo, hzero, BitVec.getLsbD_extractLsb', Nat.reduceLT,
    Nat.reduceAdd, getLsbD_decletOfBits, decide_true, Bool.true_and, Bool.and_assoc]

theorem decletOfBits_and_0x0FF (p q r s t u v w x y : Bool) :
    decletOfBits p q r s t u v w x y &&& 0x0FF#10 = decletOfBits false false r s t u v w x y := by
  apply BitVec.eq_of_getLsbD_eq
  intro i hi
  interval_cases i <;> simp [getLsbD_decletOfBits, -BitVec.getLsbD_eq_getElem]

/-- Law 4 of rule R119 on the tables. -/
theorem dpdTable_dpdDecode (n : Declet) :
    dpdTable (dpdDecode n) = if canonicalDeclet n then n else n &&& 0x0FF#10 := by
  rw [← decletOfBits_getLsbD n, dpdTable_dpdDecode_decletOfBits, canonicalDeclet_decletOfBits,
    decletOfBits_and_0x0FF]
  generalize (n.getLsbD 3 && n.getLsbD 2 && n.getLsbD 1 && n.getLsbD 6 && n.getLsbD 5) = threeLarge
  generalize n.getLsbD 9 = p
  generalize n.getLsbD 8 = q
  cases threeLarge <;> cases p <;> cases q <;> rfl

theorem and_0x0FF_ne_of_not_canonical {n : Declet} (h : canonicalDeclet n = false) :
    n &&& 0x0FF#10 ≠ n := by
  intro heq
  have h9 : n.getLsbD 9 = false := by
    rw [← heq, BitVec.getLsbD_and]
    exact Bool.and_false _
  have h8 : n.getLsbD 8 = false := by
    rw [← heq, BitVec.getLsbD_and]
    exact Bool.and_false _
  rw [← decletOfBits_getLsbD n, canonicalDeclet_decletOfBits, h9, h8, Bool.or_false,
    Bool.and_false] at h
  exact Bool.noConfusion h

/-- Rule R116 on numbers: a row of the decoding table gives a small digit, at most 7, or a large one, 8 or 9. -/
theorem triadNumbers_le_nine (n : Nat) :
    (triadNumbers n).1 ≤ 9 ∧ (triadNumbers n).2.1 ≤ 9 ∧ (triadNumbers n).2.2 ≤ 9 := by
  simp only [triadNumbers]
  split_ifs <;> simp only <;> omega

/-- Rule R116: a decoded triad is three digits. -/
@[simp] theorem legalTriad_dpdDecode (n : Declet) : legalTriad (dpdDecode n) = true := by
  obtain ⟨d2, d1, d0, htriad, hnumbers⟩ := dpdDecode_eq_triadOf n
  rw [htriad, legalTriad_triadOf]
  simpa [hnumbers] using triadNumbers_le_nine n.toNat

/-- Rule R118: an encoded declet is canonical, because decoding gives its triad back and the triad's declet is that one. -/
theorem canonicalDeclet_dpdTable {t : Triad} (ht : legalTriad t = true) :
    canonicalDeclet (dpdTable t) = true := by
  have hback := dpdTable_dpdDecode (dpdTable t)
  rw [dpdDecode_dpdTable ht] at hback
  by_contra hnot
  rw [if_neg hnot] at hback
  exact and_0x0FF_ne_of_not_canonical (Bool.eq_false_iff.mpr hnot) hback.symm

/-! ### The two operations -/

/-- The declet of a legal triad, or the error of any other (rule R112). -/
theorem dpdEncode_of_legal {t : Triad} (ht : legalTriad t = true) :
    dpdEncode t = .ok (dpdTable t) :=
  if_pos ht

theorem dpdEncode_eq_ok_iff (t : Triad) (w : Declet) :
    dpdEncode t = .ok w ↔ legalTriad t = true ∧ dpdTable t = w := by
  rw [dpdEncode]
  split_ifs with ht <;> simp [ht]

/-- `DPD.ENC` on a legal triad. -/
theorem exec_dpdEnc_of_legal (fmt : BitVec 2) {s : State} {bcd : Triad}
    (hbcd : s.inp.bcd = some bcd) (hlegal : legalTriad bcd = true) :
    exec (.dpdEnc fmt) s = .next (s.drive { Outputs.zero with declet := dpdTable bcd }) := by
  rw [exec_dpdEnc_of_bcd fmt s bcd hbcd, dpdEncode_of_legal hlegal]
  rfl

/-- All that `DPD.ENC` can answer without an error. -/
theorem exec_dpdEnc_next_of_err_zero {fmt : BitVec 2} {s t : State}
    (h : exec (.dpdEnc fmt) s = .next t) (herr : t.out.err = 0) :
    ∃ bcd : Triad, s.inp.bcd = some bcd ∧ legalTriad bcd = true ∧ t.out.declet = dpdTable bcd := by
  obtain ⟨bcd, hbcd, rfl⟩ := exec_dpdEnc_next h
  cases henc : dpdEncode bcd with
  | error e =>
    rw [henc] at herr
    exact absurd herr (errCode_ne_zero e)
  | ok w =>
    obtain ⟨hlegal, rfl⟩ := (dpdEncode_eq_ok_iff bcd w).mp henc
    exact ⟨bcd, hbcd, hlegal, rfl⟩

/-- Settles O9: the equations are the table on legal triads. -/
theorem encoderGatesMatchDpdEnc : Obligations.EncoderGatesMatchDpdEnc := by
  intro fmt s bcd hbcd hlegal
  rw [exec_dpdEnc_of_legal fmt hbcd hlegal, gateEncode_eq_dpdTable hlegal]
  rfl

/-- Settles O10: the equations are the table on every declet. -/
theorem decoderGatesMatchDpdDec : Obligations.DecoderGatesMatchDpdDec := by
  intro fmt s w hw
  rw [exec_dpdDec_of_declet fmt s w hw, gateDecode_eq_dpdDecode]
  rfl

/-- Settles O11: the triad driven is a decoded one, and those are legal. -/
theorem dpdDecDrivesOnlyDigits : Obligations.DpdDecDrivesOnlyDigits := by
  intro fmt s t h
  obtain ⟨w, -, rfl⟩ := exec_dpdDec_next h
  have hdigits := (legalTriad_iff _).mp (legalTriad_dpdDecode w)
  simp only [not_or, not_lt] at hdigits
  exact hdigits

/-- Settles O12: the decoding table undoes the encoding table. -/
theorem dpdRoundTripOfTriads : Obligations.DpdRoundTripOfTriads := by
  intro fmt fmt' s u bcd hbcd hlegal
  refine ⟨_, exec_dpdEnc_of_legal fmt hbcd hlegal, rfl, fun hu => ?_⟩
  rw [exec_dpdDec_of_declet fmt' u _ hu, State.drive_out, dpdDecode_dpdTable hlegal]
  rfl

/-- Settles O13: the encoding table on a decoded triad, which is legal. -/
theorem dpdReencodeOfDeclets : Obligations.DpdReencodeOfDeclets := by
  intro fmt fmt' s u w hw
  refine ⟨_, exec_dpdDec_of_declet fmt s w hw, fun hu => ?_, and_0x0FF_ne_of_not_canonical⟩
  have hu : u.inp.bcd = some (dpdDecode w) := hu
  rw [exec_dpdEnc_of_legal fmt' hu (legalTriad_dpdDecode w), dpdTable_dpdDecode]
  rfl

theorem canonicalDeclet_iff (w : Declet) :
    canonicalDeclet w = true ↔
      ¬ (w.extractLsb' 1 3 = 0b111#3 ∧ w.extractLsb' 5 2 = 0b11#2 ∧
        w.extractLsb' 8 2 ≠ 0b00#2) := by
  simp only [canonicalDeclet, Bool.not_eq_true', ← Bool.not_eq_true, Bool.and_eq_true, beq_iff_eq,
    bne_iff_ne, and_assoc]

/-- Settles O14: an encoded declet is canonical, and a canonical one is the declet of the triad it decodes to. -/
theorem canonicalDecletsAreTheImageOfDpdEnc : Obligations.CanonicalDecletsAreTheImageOfDpdEnc := by
  intro w
  rw [← canonicalDeclet_iff]
  constructor
  · rintro ⟨fmt, s, t, h, herr, rfl⟩
    obtain ⟨bcd, -, hlegal, hdeclet⟩ := exec_dpdEnc_next_of_err_zero h herr
    rw [hdeclet]
    exact canonicalDeclet_dpdTable hlegal
  · intro hw
    refine ⟨0, { State.reset with inp := { Inputs.zero with bcd := some (dpdDecode w) } }, _,
      exec_dpdEnc_of_legal 0 rfl (legalTriad_dpdDecode w), rfl, ?_⟩
    simp [dpdTable_dpdDecode, hw]

/-- Settles O15: by the gate equations, where the lowest bit of each digit is a wire. -/
theorem lowDigitBitsPassThrough : Obligations.LowDigitBitsPassThrough := by
  constructor
  · intro fmt s t bcd hbcd h herr
    obtain ⟨bcd', hbcd', hlegal, hdeclet⟩ := exec_dpdEnc_next_of_err_zero h herr
    obtain rfl : bcd = bcd' := Option.some.inj (hbcd.symm.trans hbcd')
    rw [hdeclet, ← gateEncode_eq_dpdTable hlegal]
    simp only [gateEncode, getLsbD_decletOfBits, and_self]
  · intro fmt s t w hw h
    obtain ⟨w', hw', rfl⟩ := exec_dpdDec_next h
    obtain rfl : w = w' := Option.some.inj (hw.symm.trans hw')
    rw [State.drive_out, ← gateDecode_eq_dpdDecode]
    simp only [gateDecode, getLsbD_triadOf_nibbleOfBits, and_self]

end Sys2Proof.Machine

/-! PROOFS. The laws of the combination field: what a head unpacks to by its combination field, that the unpacker undoes the packer, and that packing again clears what the unpacker ignores (30_encoding.md rule R85, 41_combination_field.md rules R147, R152, R161). -/

namespace Sys2Proof.Machine

/-! ### A head and its fields -/

theorem joinHead_lt (F : Format) (sign : BitVec 1) (comb : BitVec 5) (cont : BitVec F.ecb) :
    (joinHead F sign comb cont).toNat < 2 ^ F.headWidth := by
  rw [joinHead_toNat]
  have hs := sign.isLt
  have hc := comb.isLt
  have hk := cont.isLt
  cases F <;> simp at * <;> omega

/-- A head that fits its width is its three fields. -/
theorem joinHead_fields {F : Format} {h : Head} (hlt : h.toNat < 2 ^ F.headWidth) :
    joinHead F (headSign F h) (headComb F h) (headCont F h) = h := by
  apply BitVec.eq_of_toNat_eq
  rw [joinHead_toNat, headSign_toNat, headComb_toNat, headCont_toNat]
  cases F <;> simp at * <;> omega

theorem joinHead_div (F : Format) (sign : BitVec 1) (comb : BitVec 5) (cont : BitVec F.ecb) :
    (joinHead F sign comb cont).toNat / 2 ^ F.ecb = sign.toNat * 32 + comb.toNat := by
  rw [joinHead_toNat, Nat.mul_comm, Nat.mul_add_div (Nat.two_pow_pos _),
    Nat.div_eq_of_lt cont.isLt, Nat.add_zero]

/-- The combination field of a glued head, read as a number. -/
theorem joinHead_comb (F : Format) (sign : BitVec 1) (comb : BitVec 5) (cont : BitVec F.ecb) :
    (joinHead F sign comb cont).toNat / 2 ^ F.ecb % 32 = comb.toNat := by
  have hc := comb.isLt
  rw [joinHead_div]
  omega

/-- The sign bit of a glued head stands above the combination field. -/
theorem joinHead_sign (F : Format) (sign : BitVec 1) (comb : BitVec 5) (cont : BitVec F.ecb) :
    (joinHead F sign comb cont).toNat / 2 ^ F.ecb / 2 ^ 5 = sign.toNat := by
  have hc := comb.isLt
  rw [joinHead_div]
  omega

/-- The continuation of a glued head, read as a number. -/
theorem joinHead_cont (F : Format) (sign : BitVec 1) (comb : BitVec 5) (cont : BitVec F.ecb) :
    (joinHead F sign comb cont).toNat % 2 ^ F.ecb = cont.toNat := by
  rw [← headCont_toNat, headCont_joinHead]

/-! ### The unpacker by the combination field -/

/-- The 32 values of rule R82: an exponent's two upper bits, not both 1, with a digit, or one of the two special values. -/
theorem comb_cases (comb : BitVec 5) :
    (∃ (hi2 : BitVec 2) (lead : Nibble), hi2 ≠ 0b11#2 ∧ lead.toNat ≤ 9 ∧
      comb = finiteComb hi2 lead) ∨ comb = 0b11110#5 ∨ comb = 0b11111#5 := by
  revert comb; decide

/-- What the tests of the unpacker see in the combination field of a small digit. -/
theorem finiteComb_small (hi2 : BitVec 2) {lead : Nibble} (hlead : lead.toNat ≤ 7) :
    (finiteComb hi2 lead).extractLsb' 3 2 = hi2 ∧
      0b0#1 ++ (finiteComb hi2 lead).extractLsb' 0 3 = lead := by
  revert hi2 lead; decide

/-- What the tests of the unpacker see in the combination field of a large digit. -/
theorem finiteComb_large (hi2 : BitVec 2) {lead : Nibble} (hlarge : 7 < lead.toNat)
    (hlead : lead.toNat ≤ 9) :
    (finiteComb hi2 lead).extractLsb' 3 2 = 0b11#2 ∧
      (finiteComb hi2 lead).extractLsb' 1 2 = hi2 ∧
      0b100#3 ++ (finiteComb hi2 lead).extractLsb' 0 1 = lead := by
  revert hi2 lead; decide

theorem unpackHead_of_finiteComb {F : Format} {h : Head} {hi2 : BitVec 2} {lead : Nibble}
    (hhi : hi2 ≠ 0b11#2) (hlead : lead.toNat ≤ 9) (hcomb : headComb F h = finiteComb hi2 lead) :
    unpackHead F h =
      { sign := headSign F h, tag := .finite, bexp := assembleExponent F hi2 (headCont F h),
        lead := lead } := by
  simp only [unpackHead, hcomb]
  by_cases hsmall : lead.toNat ≤ 7
  · obtain ⟨hexp, hdigit⟩ := finiteComb_small hi2 hsmall
    rw [hexp, if_pos hhi, hdigit]
  · obtain ⟨htop, hexp, hdigit⟩ := finiteComb_large hi2 (Nat.lt_of_not_le hsmall) hlead
    rw [htop, hexp, if_neg (not_not_intro rfl), if_pos hhi, hdigit]

theorem unpackHead_of_inf {F : Format} {h : Head} (hcomb : headComb F h = 0b11110#5) :
    unpackHead F h = { sign := headSign F h, tag := .inf, bexp := 0, lead := 0 } := by
  simp only [unpackHead, hcomb]
  rfl

theorem unpackHead_of_nan {F : Format} {h : Head} (hcomb : headComb F h = 0b11111#5) :
    unpackHead F h =
      { sign := headSign F h
        tag := if (headCont F h).getLsbD (F.ecb - 1) then .snan else .qnan
        bexp := 0
        lead := 0 } := by
  simp only [unpackHead, hcomb]
  cases (headCont F h).getLsbD (F.ecb - 1) <;> rfl

theorem unpackHead_sign (F : Format) (h : Head) : (unpackHead F h).sign = headSign F h := by
  simp only [unpackHead]
  split_ifs <;> rfl

/-- Two bits that are not both 1, above a continuation: the limit is `3 * 2^ECB - 1`. -/
theorem assembleExponent_le {F : Format} {hi2 : BitVec 2} (cont : BitVec F.ecb)
    (hhi : hi2 ≠ 0b11#2) : assembleExponent F hi2 cont ≤ F.elimit := by
  have hlt : hi2.toNat < 3 := by revert hi2; decide
  have hk := cont.isLt
  rw [assembleExponent]
  cases F <;> simp at * <;> omega

/-- Rule R152: the exponent and the digit an unpacked head reports are in range, and a special tag reports neither. -/
theorem unpackHead_inRange (F : Format) (h : Head) :
    (unpackHead F h).bexp ≤ F.elimit ∧ (unpackHead F h).lead.toNat ≤ 9 ∧
      ((unpackHead F h).tag ≠ .finite → (unpackHead F h).bexp = 0 ∧ (unpackHead F h).lead = 0) := by
  obtain ⟨hi2, lead, hhi, hlead, hcomb⟩ | hinf | hnan := comb_cases (headComb F h)
  · rw [unpackHead_of_finiteComb hhi hlead hcomb]
    exact ⟨assembleExponent_le _ hhi, hlead, fun h => absurd rfl h⟩
  · rw [unpackHead_of_inf hinf]
    simp
  · rw [unpackHead_of_nan hnan]
    simp

/-! ### The unpacker undoes the packer -/

theorem packFinite_eq_ok_iff (F : Format) (sign : BitVec 1) (bexp : BitVec 15) (lead : Nibble)
    (h : Head) :
    packFinite F sign bexp lead = .ok h ↔
      bexp.toNat ≤ F.elimit ∧ lead.toNat ≤ 9 ∧
        joinHead F sign (finiteComb (bexp.extractLsb' F.ecb 2) lead) (bexp.extractLsb' 0 F.ecb) =
          h := by
  rw [packFinite_eq]
  split_ifs with hover hbad
  · simp [hover]
  · simp [hbad]
  · simp [Nat.le_of_not_lt hover, Nat.le_of_not_lt hbad]

theorem exponentTop_ne {F : Format} {bexp : BitVec 15} (hle : bexp.toNat ≤ F.elimit) :
    bexp.extractLsb' F.ecb 2 ≠ 0b11#2 :=
  fun htop => absurd ((elimit_lt_iff_slices F bexp).mpr (.inr htop)) (Nat.not_lt.mpr hle)

/-- The exponent's slices make the exponent. -/
theorem assembleExponent_slices {F : Format} {bexp : BitVec 15} (hle : bexp.toNat ≤ F.elimit) :
    assembleExponent F (bexp.extractLsb' F.ecb 2) (bexp.extractLsb' 0 F.ecb) = bexp.toNat := by
  simp only [assembleExponent, BitVec.extractLsb'_toNat, Nat.shiftRight_eq_div_pow]
  cases F <;> simp at * <;> omega

/-- The slices of an assembled exponent are what it was assembled from. -/
theorem slices_assembleExponent {F : Format} (hi2 : BitVec 2) (cont : BitVec F.ecb) :
    (BitVec.ofNat 15 (assembleExponent F hi2 cont)).extractLsb' F.ecb 2 = hi2 ∧
      (BitVec.ofNat 15 (assembleExponent F hi2 cont)).extractLsb' 0 F.ecb = cont := by
  have hh := hi2.isLt
  have hk := cont.isLt
  simp only [← BitVec.toNat_inj, assembleExponent, BitVec.extractLsb'_toNat, BitVec.toNat_ofNat,
    Nat.shiftRight_eq_div_pow]
  cases F <;> simp at * <;> omega

/-- Law 1 of rule R161 on the functions. -/
theorem unpackHead_packFinite {F : Format} {sign : BitVec 1} {bexp : BitVec 15} {lead : Nibble}
    {h : Head} (hpack : packFinite F sign bexp lead = .ok h) :
    unpackHead F h = { sign := sign, tag := .finite, bexp := bexp.toNat, lead := lead } := by
  obtain ⟨hle, hlead, rfl⟩ := (packFinite_eq_ok_iff ..).mp hpack
  rw [unpackHead_of_finiteComb (exponentTop_ne hle) hlead (headComb_joinHead ..),
    headSign_joinHead, headCont_joinHead, assembleExponent_slices hle]

/-- Law 2 of rule R161 on the functions. -/
theorem unpackHead_packSpecial (F : Format) (sign : BitVec 1) {tag : Tag} (htag : tag ≠ .finite) :
    unpackHead F (packSpecial F sign tag) = { sign := sign, tag := tag, bexp := 0, lead := 0 } := by
  have hsign := headSign_packSpecial F sign tag
  have hcomb : headComb F (packSpecial F sign tag) = specialComb tag := headComb_joinHead ..
  have hcont : headCont F (packSpecial F sign tag) = specialCont F tag := headCont_joinHead ..
  cases tag with
  | finite => exact absurd rfl htag
  | inf => rw [unpackHead_of_inf hcomb, hsign]
  | qnan =>
    have hbit : (specialCont F .qnan).getLsbD (F.ecb - 1) = false := by cases F <;> rfl
    rw [unpackHead_of_nan hcomb, hsign, hcont, hbit, if_neg Bool.false_ne_true]
  | snan =>
    have hbit : (specialCont F .snan).getLsbD (F.ecb - 1) = true := by cases F <;> rfl
    rw [unpackHead_of_nan hcomb, hsign, hcont, hbit, if_pos rfl]

/-! ### Packing again what a head unpacks to -/

/-- The head without the bits the unpacker ignores: the whole continuation of an infinity, and that of a NaN below the quiet/signaling bit (laws 3 and 4 of rule R161). -/
def canonicalHead (F : Format) (h : Head) : Head :=
  if (unpackHead F h).tag = .finite then h
  else if (unpackHead F h).tag = .inf then BitVec.ofNat 18 (h.toNat / 2 ^ F.ecb * 2 ^ F.ecb)
  else BitVec.ofNat 18 (h.toNat / 2 ^ (F.ecb - 1) * 2 ^ (F.ecb - 1))

theorem canonicalHead_of_finite {F : Format} {h : Head} (htag : (unpackHead F h).tag = .finite) :
    canonicalHead F h = h := by
  rw [canonicalHead, if_pos htag]

theorem canonicalHead_of_inf {F : Format} {h : Head} (htag : (unpackHead F h).tag = .inf) :
    canonicalHead F h = BitVec.ofNat 18 (h.toNat / 2 ^ F.ecb * 2 ^ F.ecb) := by
  rw [canonicalHead, htag, if_neg (by decide), if_pos rfl]

theorem canonicalHead_of_nan {F : Format} {h : Head} (hfinite : (unpackHead F h).tag ≠ .finite)
    (hinf : (unpackHead F h).tag ≠ .inf) :
    canonicalHead F h = BitVec.ofNat 18 (h.toNat / 2 ^ (F.ecb - 1) * 2 ^ (F.ecb - 1)) := by
  rw [canonicalHead, if_neg hfinite, if_neg hinf]

/-- A head that fits its width, as a number. -/
theorem toNat_eq_fields {F : Format} {h : Head} (hlt : h.toNat < 2 ^ F.headWidth) :
    h.toNat = ((headSign F h).toNat * 32 + (headComb F h).toNat) * 2 ^ F.ecb +
      (headCont F h).toNat := by
  rw [← joinHead_toNat, joinHead_fields hlt]

/-- Law 3 of rule R161 on the functions, for a finite head. -/
theorem packFinite_unpackHead {F : Format} {h : Head} (hlt : h.toNat < 2 ^ F.headWidth)
    {hi2 : BitVec 2} {lead : Nibble} (hhi : hi2 ≠ 0b11#2) (hlead : lead.toNat ≤ 9)
    (hcomb : headComb F h = finiteComb hi2 lead) :
    packFinite F (headSign F h) (BitVec.ofNat 15 (assembleExponent F hi2 (headCont F h))) lead =
      .ok h := by
  obtain ⟨htop, hlow⟩ := slices_assembleExponent hi2 (headCont F h)
  refine (packFinite_eq_ok_iff ..).mpr ⟨?_, hlead, ?_⟩
  · rw [BitVec.toNat_ofNat]
    exact (Nat.mod_le ..).trans (assembleExponent_le _ hhi)
  · rw [htop, hlow, ← hcomb, joinHead_fields hlt]

theorem packSpecial_toNat (F : Format) (sign : BitVec 1) (tag : Tag) :
    (packSpecial F sign tag).toNat =
      (sign.toNat * 32 + (specialComb tag).toNat) * 2 ^ F.ecb + (specialCont F tag).toNat :=
  joinHead_toNat ..

theorem packHead_of_special (F : Format) (sign : BitVec 1) {tag : Tag} (bexp : BitVec 15)
    (lead : Nibble) (htag : tag ≠ .finite) :
    packHead F sign tag bexp lead = .ok (packSpecial F sign tag) := by
  cases tag with
  | finite => exact absurd rfl htag
  | inf | qnan | snan => rfl

/-- Law 4 of rule R161 for an infinity: of its head, the sign and the combination field come back. -/
theorem packSpecial_of_inf {F : Format} {h : Head} (hlt : h.toNat < 2 ^ F.headWidth)
    (hcomb : headComb F h = 0b11110#5) :
    packSpecial F (headSign F h) .inf = BitVec.ofNat 18 (h.toNat / 2 ^ F.ecb * 2 ^ F.ecb) := by
  have hnum := toNat_eq_fields hlt
  have hk := (headCont F h).isLt
  apply BitVec.eq_of_toNat_eq
  rw [packSpecial_toNat]
  rw [hcomb] at hnum
  cases F <;> simp [specialComb, specialCont] at * <;> omega

/-- Law 4 of rule R161 for a NaN: beside those, the quiet/signaling bit comes back. -/
theorem packSpecial_of_nan {F : Format} {h : Head} (hlt : h.toNat < 2 ^ F.headWidth)
    (hcomb : headComb F h = 0b11111#5) :
    packSpecial F (headSign F h)
        (if (headCont F h).getLsbD (F.ecb - 1) then .snan else .qnan) =
      BitVec.ofNat 18 (h.toNat / 2 ^ (F.ecb - 1) * 2 ^ (F.ecb - 1)) := by
  have hnum := toNat_eq_fields hlt
  have hk := (headCont F h).isLt
  have hquiet := cont_quiet_iff F (headCont F h)
  apply BitVec.eq_of_toNat_eq
  rw [packSpecial_toNat]
  rw [hcomb] at hnum
  cases hbit : (headCont F h).getLsbD (F.ecb - 1)
  all_goals
    rw [hbit] at hquiet
    cases F <;> simp [specialComb, specialCont] at * <;> omega

/-- Laws 3 and 4 of rule R161 on the functions. -/
theorem packHead_unpackHead {F : Format} {h : Head} (hlt : h.toNat < 2 ^ F.headWidth) :
    packHead F (unpackHead F h).sign (unpackHead F h).tag (BitVec.ofNat 15 (unpackHead F h).bexp)
      (unpackHead F h).lead = .ok (canonicalHead F h) := by
  obtain ⟨hi2, lead, hhi, hlead, hcomb⟩ | hinf | hnan := comb_cases (headComb F h)
  · have hunpack := unpackHead_of_finiteComb hhi hlead hcomb
    rw [canonicalHead_of_finite (by rw [hunpack]), hunpack]
    exact packFinite_unpackHead hlt hhi hlead hcomb
  · have hunpack := unpackHead_of_inf hinf
    rw [canonicalHead_of_inf (by rw [hunpack]), hunpack, ← packSpecial_of_inf hlt hinf]
    rfl
  · have hunpack := unpackHead_of_nan hnan
    obtain ⟨hfinite, hinf⟩ : (unpackHead F h).tag ≠ .finite ∧ (unpackHead F h).tag ≠ .inf := by
      rw [hunpack]
      cases (headCont F h).getLsbD (F.ecb - 1) <;> simp
    rw [packHead_of_special _ _ _ _ hfinite, canonicalHead_of_nan hfinite hinf,
      ← packSpecial_of_nan hlt hnan, hunpack]

/-! ### The two operations -/

theorem tagOfBits_ne_finite {tag : BitVec 2} (hspecial : tag ≠ 0b00#2) : tagOfBits tag ≠ .finite :=
  mt (tagOfBits_eq_finite tag).mp hspecial

@[simp] theorem bitsOfTag_tagOfBits (tag : BitVec 2) : bitsOfTag (tagOfBits tag) = tag := by
  revert tag; decide

@[simp] theorem tagOfBits_bitsOfTag (tag : Tag) : tagOfBits (bitsOfTag tag) = tag := by
  cases tag <;> rfl

/-- `CF.PACK` with every operand port driven is the packer on what they hold. -/
theorem packPorts_eq_packHead {F : Format} {s : State} {sign : BitVec 1} {tag : BitVec 2}
    {bexp : BitVec 15} {lead : Nibble} (hs : s.inp.sign = some sign) (ht : s.inp.tag = some tag)
    (hb : s.inp.bexp = some bexp) (hl : s.inp.lead = some lead) :
    packPorts F s =
      .next (s.answer ((packHead F sign (tagOfBits tag) bexp lead).map headOutputs)) := by
  simp only [packPorts, hs, ht, hb, hl, readPort_some]
  cases tagOfBits tag <;> rfl

theorem special_cases {tag : BitVec 2} (hspecial : tag ≠ 0b00#2) :
    tag = 0b01#2 ∨ tag = 0b10#2 ∨ tag = 0b11#2 := by
  revert tag; decide

/-- Settles O19: the head of a special tag, read as a number. -/
theorem specialTagsPackWithoutExponentOrDigit :
    Obligations.SpecialTagsPackWithoutExponentOrDigit := by
  intro F s sign tag hs ht hspecial
  rw [exec_packInstr, packPorts_of_special F s sign tag hs ht (tagOfBits_ne_finite hspecial)]
  refine congrArg (fun head => Host.Outcome.next (s.drive (headOutputs head))) ?_
  rw [← BitVec.toNat_inj, BitVec.toNat_ofNat, packSpecial_toNat]
  have hlt := sign.isLt
  obtain rfl | rfl | rfl := special_cases hspecial
  all_goals cases F <;> simp [tagOfBits, specialComb, specialCont] <;> omega

theorem finiteComb_lt {hi2 : BitVec 2} {lead : Nibble} (hhi : hi2 ≠ 0b11#2)
    (hlead : lead.toNat ≤ 9) : (finiteComb hi2 lead).toNat < 30 := by
  revert hi2 lead; decide

/-- The continuation of a special tag holds the quiet/signaling bit alone, and that for a NaN only. -/
theorem specialCont_canonical (F : Format) (tag : Tag) :
    ((specialComb tag).toNat = 30 → (specialCont F tag).toNat = 0) ∧
      (specialCont F tag).toNat % 2 ^ (F.ecb - 1) = 0 := by
  cases F <;> cases tag <;> decide

/-- Settles O20: the head is glued of its fields, a finite one's combination field is no special one, and a special tag's continuation is fixed. -/
theorem packedHeadsAreCanonical : Obligations.PackedHeadsAreCanonical := by
  intro F s t h herr
  obtain ⟨sign, tag, -, ht, ⟨-, bexp, lead, -, -, rfl⟩ | ⟨hspecial, rfl⟩⟩ :=
    packPorts_next (exec_packInstr F s ▸ h)
  · cases hpack : packFinite F sign bexp lead with
    | error e =>
      rw [hpack] at herr
      exact absurd herr (errCode_ne_zero e)
    | ok head =>
      obtain ⟨hle, hlead, rfl⟩ := (packFinite_eq_ok_iff ..).mp hpack
      have hcomb := finiteComb_lt (exponentTop_ne hle) hlead
      rw [← joinHead_comb F sign _ (bexp.extractLsb' 0 F.ecb)] at hcomb
      exact ⟨joinHead_lt .., fun _ => hcomb, fun h => absurd h hcomb.ne,
        fun h => absurd h (hcomb.trans (by decide : 30 < 31)).ne⟩
  · obtain ⟨hinf, hnan⟩ := specialCont_canonical F (tagOfBits tag)
    have hcont := joinHead_cont F sign (specialComb (tagOfBits tag)) (specialCont F (tagOfBits tag))
    refine ⟨joinHead_lt .., fun hfinite => ?_, fun h => ?_, fun h => ?_⟩
    · obtain rfl : tag = 0b00#2 := Option.some.inj (ht.symm.trans hfinite)
      exact absurd rfl hspecial
    · exact hcont.trans (hinf ((joinHead_comb ..).symm.trans h))
    · rw [← Nat.mod_mod_of_dvd _ (Nat.pow_dvd_pow 2 (Nat.sub_le F.ecb 1))]
      exact (congrArg (· % 2 ^ (F.ecb - 1)) hcont).trans hnan

/-! ### What the unpacker drives -/

theorem elimit_le (F : Format) : F.elimit ≤ 12287 := by
  cases F <;> decide

/-- The exponent port is wide enough for every reported exponent. -/
theorem unpackHead_bexp_toNat (F : Format) (h : Head) :
    (unpackHead F h).outputs.bexp.toNat = (unpackHead F h).bexp := by
  obtain ⟨hbexp, -, -⟩ := unpackHead_inRange F h
  have hmax := elimit_le F
  exact Nat.mod_eq_of_lt (by omega)

/-- Settles O24: the fields an unpacked head reports, on their ports. -/
theorem unpackedFieldsAreInRange : Obligations.UnpackedFieldsAreInRange := by
  intro F s t h
  obtain ⟨x, -, rfl⟩ := unpackPorts_next (exec_unpackInstr F s ▸ h)
  obtain ⟨hbexp, hlead, hspecial⟩ := unpackHead_inRange F x
  refine ⟨rfl, hlead, (unpackHead_bexp_toNat F x).trans_le hbexp, fun htag => ?_⟩
  obtain ⟨hbexp0, hlead0⟩ := hspecial fun hfinite => htag (congrArg bitsOfTag hfinite)
  exact ⟨congrArg (BitVec.ofNat 14) hbexp0, hlead0⟩

/-- `CF.UNPACK` on a head whose fields are known. -/
theorem exec_unpackInstr_of_head {F : Format} {u : State} {h : Head} {fields : Unpacked}
    (hh : u.inp.head = some h) (hunpack : unpackHead F h = fields) :
    exec (unpackInstr F) u = .next (u.drive fields.outputs) := by
  rw [exec_unpackInstr, unpackPorts_of_head F u h hh, hunpack]

/-- Settles O25: the head the packer answers is one the unpacker reads back. -/
theorem finiteOperandsRoundTripThroughTheHead :
    Obligations.FiniteOperandsRoundTripThroughTheHead := by
  intro F s u sign be lead hbe hlead hs ht hb hl
  have hmax := elimit_le F
  have hbe15 : (BitVec.ofNat 15 be).toNat = be := Nat.mod_eq_of_lt (by omega)
  have hlead4 : (BitVec.ofNat 4 lead).toNat = lead := Nat.mod_eq_of_lt (by omega)
  have hpack := (packFinite_eq_ok_iff F sign (BitVec.ofNat 15 be) (BitVec.ofNat 4 lead) _).mpr
    ⟨hbe15.trans_le hbe, hlead4.trans_le hlead, rfl⟩
  refine ⟨_, (exec_packInstr F s).trans (packPorts_of_finite F s sign _ _ _ hs ht rfl hb hl), ?_⟩
  rw [hpack]
  refine ⟨rfl, fun hu => ?_⟩
  rw [exec_unpackInstr_of_head hu (unpackHead_packFinite hpack), hbe15]
  rfl

/-- Settles O26: the same for the head of a special tag. -/
theorem specialTagsRoundTripThroughTheHead : Obligations.SpecialTagsRoundTripThroughTheHead := by
  intro F s u sign tag hs ht hspecial
  have hne := tagOfBits_ne_finite hspecial
  refine ⟨_, (exec_packInstr F s).trans (packPorts_of_special F s sign tag hs ht hne), rfl,
    fun hu => ?_⟩
  rw [exec_unpackInstr_of_head hu (unpackHead_packSpecial F sign hne)]
  simp only [Unpacked.outputs, bitsOfTag_tagOfBits]
  rfl

theorem bitsOfTag_eq_zero (tag : Tag) : bitsOfTag tag = 0b00#2 ↔ tag = .finite := by
  cases tag <;> decide

theorem bitsOfTag_eq_one (tag : Tag) : bitsOfTag tag = 0b01#2 ↔ tag = .inf := by
  cases tag <;> decide

/-- Settles O27: the packer on the fields of the head. -/
theorem repackedHeadsAreCanonicalised : Obligations.RepackedHeadsAreCanonicalised := by
  intro F s u h hh hlt
  refine ⟨_, exec_unpackInstr_of_head hh rfl, fun hs ht hb hl => ?_⟩
  have hport : (unpackHead F h).outputs.bexp.setWidth 15 =
      BitVec.ofNat 15 (unpackHead F h).bexp := by
    rw [← unpackHead_bexp_toNat, BitVec.ofNat_toNat]
  have hb : u.inp.bexp = some (BitVec.ofNat 15 (unpackHead F h).bexp) :=
    hb.trans (congrArg some hport)
  rw [exec_packInstr, packPorts_eq_packHead hs ht hb hl]
  have hpack := packHead_unpackHead hlt
  simp only [State.drive_out, Unpacked.outputs, tagOfBits_bitsOfTag, hpack, bitsOfTag_eq_zero,
    bitsOfTag_eq_one]
  rfl

end Sys2Proof.Machine

/-! PROOFS. The typed view of the block and its ports: an instruction answers its typed request, or is refused by the first of the ports it reads that is not driven; and what follows for every step (10_state.md rules R36 to R38, 70_reset_and_hazards.md rule R242). -/

namespace Sys2Proof.Machine

/-! ### What a head shows in the typed view -/

/-- The spare bits of the port take no part in any field (10_state.md rule R35). -/
theorem headFields_headOnly (F : Format) (h : Head) :
    headSign F (headOnly F h) = headSign F h ∧ headComb F (headOnly F h) = headComb F h ∧
      headCont F (headOnly F h) = headCont F h := by
  have hlt := h.isLt
  simp only [← BitVec.toNat_inj, headSign_toNat, headComb_toNat, headCont_toNat, headOnly,
    BitVec.toNat_ofNat]
  cases F <;> simp at * <;> omega

@[simp] theorem unpackHead_headOnly (F : Format) (h : Head) :
    unpackHead F (headOnly F h) = unpackHead F h := by
  obtain ⟨hsign, hcomb, hcont⟩ := headFields_headOnly F h
  simp only [unpackHead, hsign, hcomb, hcont]

theorem headOnly_lt (F : Format) (h : Head) : (headOnly F h).toNat < 2 ^ F.headWidth := by
  rw [headOnly, BitVec.toNat_ofNat]
  exact (Nat.mod_le ..).trans_lt (Nat.mod_lt _ (Nat.two_pow_pos _))

/-- The ports show the typed result of an unpacked head, because a special tag reports no exponent and no digit. -/
theorem Unpacked.outputs_response (F : Format) {u : Unpacked}
    (hspecial : u.tag ≠ .finite → u.bexp = 0 ∧ u.lead = 0) :
    (u.response F).outputs = u.outputs := by
  obtain ⟨sign, tag, bexp, lead⟩ := u
  cases tag with
  | finite => simp [Unpacked.response, Response.outputs, Unpacked.outputs]
  | inf | qnan | snan =>
    obtain ⟨rfl, rfl⟩ := hspecial (by simp)
    rfl

/-! ### The block's response is well formed -/

theorem digits_dpdDecode (w : Declet) :
    (digit2 (dpdDecode w)).toNat ≤ 9 ∧ (digit1 (dpdDecode w)).toNat ≤ 9 ∧
      (digit0 (dpdDecode w)).toNat ≤ 9 :=
  (legalTriad_iff_digits _).mp (legalTriad_dpdDecode w)

theorem packHead_lt {F : Format} {sign : BitVec 1} {tag : Tag} {bexp : BitVec 15} {lead : Nibble}
    {h : Head} (hpack : packHead F sign tag bexp lead = .ok h) : h.toNat < 2 ^ F.headWidth := by
  cases tag with
  | finite =>
    obtain ⟨-, -, rfl⟩ := (packFinite_eq_ok_iff ..).mp hpack
    exact joinHead_lt ..
  | inf | qnan | snan =>
    obtain rfl := Except.ok.inj hpack
    exact joinHead_lt ..

/-- The fields of a response are in their ranges, whatever the request. -/
theorem respond_wellFormed (r : Request) : (respond r).WellFormed := by
  cases r with
  | dpdEnc d2 d1 d0 =>
    simp only [respond]
    cases dpdEncode (triadOf d2 d1 d0) <;> trivial
  | dpdDec w => exact digits_dpdDecode w
  | cfPack F sign tag bexp lead =>
    simp only [respond]
    cases hpack : packHead F sign tag bexp lead with
    | error e => trivial
    | ok h => exact packHead_lt hpack
  | cfUnpack F h =>
    obtain ⟨hbexp, hlead, -⟩ := unpackHead_inRange F h
    simp only [respond, Unpacked.response]
    cases (unpackHead F h).tag with
    | finite => exact ⟨hbexp, hlead⟩
    | inf | qnan | snan => trivial
  | badFormat => trivial

/-! ### An instruction answers its request, or is refused -/

/-- The first of the ports an instruction reads that is not driven. `followsTypedView` ties it to `exec`. -/
def firstUndriven (i : Instr) (inp : Inputs) : Option InPort :=
  (portsRead i inp).find? fun p => !inp.driven p

/-- The two ways of `exec`: where the ports read make a request, it is well formed, all of them are driven and the response is shown; where they do not, the refusal names the first that is not driven. -/
def FollowsTypedView (i : Instr) (s : State) : Prop :=
  (∃ r, requestOf i s.inp = some r ∧ r.WellFormed ∧ firstUndriven i s.inp = none ∧
    exec i s = .next (s.drive (respond r).outputs)) ∨
  (∃ p, requestOf i s.inp = none ∧ firstUndriven i s.inp = some p ∧
    exec i s = .refused (.undriven p))

theorem followsTypedView_dpdEnc (fmt : BitVec 2) (s : State) :
    FollowsTypedView (.dpdEnc fmt) s := by
  cases hb : s.inp.bcd with
  | none =>
    exact .inr ⟨.bcd, by simp [requestOf, hb],
      by simp [firstUndriven, portsRead, Inputs.driven, hb], by simp [exec, execDpdEnc, hb]⟩
  | some bcd =>
    refine .inl ⟨.dpdEnc (digit2 bcd) (digit1 bcd) (digit0 bcd), by simp [requestOf, hb],
      trivial, by simp [firstUndriven, portsRead, Inputs.driven, hb], ?_⟩
    rw [exec_dpdEnc_of_bcd fmt s bcd hb]
    simp only [respond, triadOf_digits]
    cases dpdEncode bcd <;> rfl

theorem followsTypedView_dpdDec (fmt : BitVec 2) (s : State) :
    FollowsTypedView (.dpdDec fmt) s := by
  cases hw : s.inp.declet with
  | none =>
    exact .inr ⟨.declet, by simp [requestOf, hw],
      by simp [firstUndriven, portsRead, Inputs.driven, hw], by simp [exec, execDpdDec, hw]⟩
  | some w =>
    refine .inl ⟨.dpdDec w, by simp [requestOf, hw],
      trivial, by simp [firstUndriven, portsRead, Inputs.driven, hw], ?_⟩
    rw [exec_dpdDec_of_declet fmt s w hw]
    simp [respond, Response.outputs, triadOf_digits]

@[simp] theorem requestOf_packInstr (F : Format) (inp : Inputs) :
    requestOf (packInstr F) inp = packRequest F inp := by
  cases F <;> rfl

@[simp] theorem requestOf_unpackInstr (F : Format) (inp : Inputs) :
    requestOf (unpackInstr F) inp = inp.head.map fun h => .cfUnpack F (headOnly F h) := by
  cases F <;> rfl

@[simp] theorem portsRead_packInstr (F : Format) (inp : Inputs) :
    portsRead (packInstr F) inp =
      if inp.tag.map tagOfBits = some .finite then [.sign, .tag, .bexp, .lead]
      else [.sign, .tag] := by
  cases F <;> rfl

@[simp] theorem portsRead_unpackInstr (F : Format) (inp : Inputs) :
    portsRead (unpackInstr F) inp = [.head] := by
  cases F <;> rfl

theorem followsTypedView_unpackInstr (F : Format) (s : State) :
    FollowsTypedView (unpackInstr F) s := by
  cases hh : s.inp.head with
  | none =>
    exact .inr ⟨.head, by simp [hh], by simp [firstUndriven, Inputs.driven, hh],
      by simp [unpackPorts, hh]⟩
  | some h =>
    refine .inl ⟨.cfUnpack F (headOnly F h), by simp [hh],
      headOnly_lt F h, by simp [firstUndriven, Inputs.driven, hh], ?_⟩
    obtain ⟨-, -, hspecial⟩ := unpackHead_inRange F h
    rw [exec_unpackInstr, unpackPorts_of_head F s h hh, respond, unpackHead_headOnly,
      Unpacked.outputs_response F hspecial]

/-- The ports show the packer's response, a head or an error. -/
theorem answer_packHead (F : Format) (s : State) (sign : BitVec 1) (tag : Tag) (bexp : BitVec 15)
    (lead : Nibble) :
    s.answer ((packHead F sign tag bexp lead).map headOutputs) =
      s.drive (respond (.cfPack F sign tag bexp lead)).outputs := by
  simp only [respond]
  cases packHead F sign tag bexp lead <;> rfl

theorem followsTypedView_packInstr (F : Format) (s : State) :
    FollowsTypedView (packInstr F) s := by
  simp only [FollowsTypedView, requestOf_packInstr, firstUndriven, portsRead_packInstr,
    exec_packInstr]
  cases hs : s.inp.sign with
  | none =>
    refine .inr ⟨.sign, by simp [packRequest, hs], ?_, by simp [packPorts, hs]⟩
    split_ifs <;> simp [Inputs.driven, hs]
  | some sign =>
    cases ht : s.inp.tag with
    | none =>
      exact .inr ⟨.tag, by simp [packRequest, hs, ht], by simp [Inputs.driven, hs, ht],
        by simp [packPorts, hs, ht]⟩
    | some tag =>
      cases hf : tagOfBits tag with
      | finite =>
        cases hb : s.inp.bexp with
        | none =>
          exact .inr ⟨.bexp, by simp [packRequest, hs, ht, hf, hb],
            by simp [Inputs.driven, hs, ht, hf, hb], by simp [packPorts, hs, ht, hf, hb]⟩
        | some bexp =>
          cases hl : s.inp.lead with
          | none =>
            exact .inr ⟨.lead, by simp [packRequest, hs, ht, hf, hb, hl],
              by simp [Inputs.driven, hs, ht, hf, hb, hl],
              by simp [packPorts, hs, ht, hf, hb, hl]⟩
          | some lead =>
            refine .inl ⟨.cfPack F sign .finite bexp lead,
              by simp [packRequest, hs, ht, hf, hb, hl],
              trivial, by simp [Inputs.driven, hs, ht, hf, hb, hl], ?_⟩
            rw [packPorts_of_finite F s sign tag bexp lead hs ht hf hb hl, ← answer_packHead]
            rfl
      | inf | qnan | snan =>
        refine .inl ⟨.cfPack F sign (tagOfBits tag) 0 0, by simp [packRequest, hs, ht, hf],
          trivial, by simp [Inputs.driven, hs, ht, hf], ?_⟩
        rw [packPorts_of_special F s sign tag hs ht (by simp [hf]), hf]
        rfl

/-- Every instruction answers its typed request, or is refused by the first undriven port it reads. -/
theorem followsTypedView (i : Instr) (s : State) : FollowsTypedView i s := by
  cases i with
  | dpdEnc fmt => exact followsTypedView_dpdEnc fmt s
  | dpdDec fmt => exact followsTypedView_dpdDec fmt s
  | cfPack32 => exact followsTypedView_packInstr .decimal32 s
  | cfPack64 => exact followsTypedView_packInstr .decimal64 s
  | cfPack128 => exact followsTypedView_packInstr .decimal128 s
  | cfUnpack32 => exact followsTypedView_unpackInstr .decimal32 s
  | cfUnpack64 => exact followsTypedView_unpackInstr .decimal64 s
  | cfUnpack128 => exact followsTypedView_unpackInstr .decimal128 s
  | reservedPack | reservedUnpack => exact .inl ⟨.badFormat, rfl, trivial, rfl, rfl⟩

theorem exec_of_request {i : Instr} {s : State} {r : Request} (hr : requestOf i s.inp = some r) :
    exec i s = .next (s.drive (respond r).outputs) := by
  obtain ⟨r', hr', -, -, hexec⟩ | ⟨p, hnone, -, -⟩ := followsTypedView i s
  · obtain rfl : r = r' := Option.some.inj (hr.symm.trans hr')
    exact hexec
  · exact absurd (hr.symm.trans hnone) (Option.some_ne_none r)

theorem exec_of_undriven {i : Instr} {s : State} {p : InPort}
    (hp : firstUndriven i s.inp = some p) : exec i s = .refused (.undriven p) := by
  obtain ⟨r, -, -, hnone, -⟩ | ⟨p', -, hp', hexec⟩ := followsTypedView i s
  · exact absurd (hp.symm.trans hnone) (Option.some_ne_none p)
  · obtain rfl : p = p' := Option.some.inj (hp.symm.trans hp')
    exact hexec

/-- All that an instruction can answer a next state with. -/
theorem exec_next {i : Instr} {s t : State} (h : exec i s = .next t) :
    ∃ r, requestOf i s.inp = some r ∧ t = s.drive (respond r).outputs := by
  obtain ⟨r, hr, -, -, hexec⟩ | ⟨p, -, -, hexec⟩ := followsTypedView i s
  · exact ⟨r, hr, Host.Outcome.next.inj (h.symm.trans hexec)⟩
  · cases h.symm.trans hexec

/-- All that an instruction can be refused by. -/
theorem exec_refused {i : Instr} {s : State} {p : InPort} (h : exec i s = .refused (.undriven p)) :
    firstUndriven i s.inp = some p := by
  obtain ⟨r, -, -, -, hexec⟩ | ⟨p', -, hp', hexec⟩ := followsTypedView i s
  · cases h.symm.trans hexec
  · obtain rfl : p = p' := by simpa using h.symm.trans hexec
    exact hp'

theorem wellFormed_of_request {i : Instr} {s : State} {r : Request}
    (hr : requestOf i s.inp = some r) : r.WellFormed := by
  obtain ⟨r', hr', hwf, -, -⟩ | ⟨p, hnone, -, -⟩ := followsTypedView i s
  · obtain rfl : r = r' := Option.some.inj (hr.symm.trans hr')
    exact hwf
  · exact absurd (hr.symm.trans hnone) (Option.some_ne_none r)

/-- Settles O41: the two ways of `followsTypedView`, with request and response well formed. -/
theorem typedViewAgreesWithThePorts : Obligations.TypedViewAgreesWithThePorts := by
  intro i s
  refine ⟨fun r hr => ⟨wellFormed_of_request hr, respond_wellFormed r, exec_of_request hr⟩,
    fun hnone => ?_⟩
  obtain ⟨r, hr, -, -, -⟩ | ⟨p, -, -, hexec⟩ := followsTypedView i s
  · exact absurd (hr.symm.trans hnone) (Option.some_ne_none r)
  · exact ⟨p, hexec⟩

/-! ### Legal outputs -/

/-- A declet the block responds with is canonical. -/
theorem respond_declet_canonical {r : Request} {w : Declet} (h : respond r = .declet w) :
    canonicalDeclet w = true := by
  cases r with
  | dpdEnc d2 d1 d0 =>
    simp only [respond] at h
    cases henc : dpdEncode (triadOf d2 d1 d0) with
    | error e => simp [henc] at h
    | ok w' =>
      obtain ⟨hlegal, rfl⟩ := (dpdEncode_eq_ok_iff ..).mp henc
      rw [henc] at h
      obtain rfl := Response.declet.inj h
      exact canonicalDeclet_dpdTable hlegal
  | dpdDec w => simp [respond] at h
  | cfPack F sign tag bexp lead =>
    simp only [respond] at h
    cases hpack : packHead F sign tag bexp lead <;> simp [hpack] at h
  | cfUnpack F head =>
    simp only [respond, Unpacked.response] at h
    cases htag : (unpackHead F head).tag <;> simp [htag] at h
  | badFormat => simp [respond] at h

/-- A well-formed response shows legal outputs, where the declet it may have is canonical. -/
theorem Response.legal_outputs {r : Response} (hwf : r.WellFormed)
    (hdeclet : ∀ w, r = .declet w → canonicalDeclet w = true) : r.outputs.Legal := by
  have hzero : Outputs.zero.Legal := by decide
  obtain ⟨-, hbcd0, hlead0, hdeclet0, hbexp0, htag0⟩ := hzero
  cases r with
  | declet w => exact ⟨fun h => (h rfl).elim, hbcd0, hlead0, hdeclet w rfl, hbexp0, htag0⟩
  | triad d2 d1 d0 =>
    refine ⟨fun h => (h rfl).elim, ?_, hlead0, hdeclet0, hbexp0, htag0⟩
    obtain ⟨h2, h1, h0⟩ := hwf
    rw [Response.outputs, legalTriad_triadOf]
    simp only [BitVec.toNat_ofNat]
    omega
  | head F h => exact ⟨fun h => (h rfl).elim, hbcd0, hlead0, hdeclet0, hbexp0, htag0⟩
  | finite F sign bexp lead =>
    obtain ⟨hbexp, hlead⟩ := hwf
    refine ⟨fun h => (h rfl).elim, hbcd0, ?_, hdeclet0, ?_, fun h => ?_⟩
    · rw [isDigit_iff, Response.outputs, BitVec.toNat_ofNat]
      omega
    · exact (Nat.mod_le ..).trans (hbexp.trans (elimit_le F))
    · exact absurd (tagOfBits_bitsOfTag .finite) h
  | infinity sign | quietNaN sign | signalingNaN sign =>
    exact ⟨fun h => (h rfl).elim, hbcd0, hlead0, hdeclet0, hbexp0, fun _ => ⟨rfl, rfl⟩⟩
  | fault e =>
    exact ⟨fun _ => ⟨rfl, rfl, rfl, rfl, rfl, rfl, rfl⟩, hbcd0, hlead0, hdeclet0, hbexp0, htag0⟩

/-- Settles O38: the outputs show a response, which is well formed and has no declet but a canonical one. -/
theorem stepDrivesLegalOutputs : Obligations.StepDrivesLegalOutputs := by
  intro s t h
  obtain ⟨cmd, -, hexec⟩ := readPort_next h
  obtain ⟨r, -, rfl⟩ := exec_next hexec
  exact Response.legal_outputs (respond_wellFormed r) fun w => respond_declet_canonical

/-! ### The frame of an instruction -/

theorem packPorts_frame {F : Format} {s t : State} (h : packPorts F s = .next t) :
    t.inp = s.inp ∧ t.out.declet = 0 ∧ t.out.bcd = 0 ∧ t.out.sign = 0 ∧ t.out.tag = 0 ∧
      t.out.bexp = 0 ∧ t.out.lead = 0 := by
  obtain ⟨sign, tag, -, -, ⟨-, bexp, lead, -, -, rfl⟩ | ⟨-, rfl⟩⟩ := packPorts_next h
  · refine ⟨State.answer_inp .., ?_⟩
    cases packFinite F sign bexp lead <;> exact ⟨rfl, rfl, rfl, rfl, rfl, rfl⟩
  · exact ⟨rfl, rfl, rfl, rfl, rfl, rfl, rfl⟩

theorem unpackPorts_frame {F : Format} {s t : State} (h : unpackPorts F s = .next t) :
    t.inp = s.inp ∧ t.out.declet = 0 ∧ t.out.bcd = 0 ∧ t.out.head = 0 := by
  obtain ⟨x, -, rfl⟩ := unpackPorts_next h
  exact ⟨rfl, rfl, rfl, rfl⟩

/-- Settles O35: what each instruction can answer, on the ports it does not drive. -/
theorem onlyTheDrivenOutputsChange : Obligations.OnlyTheDrivenOutputsChange := by
  intro i s t h
  cases i with
  | dpdEnc fmt =>
    obtain ⟨bcd, -, rfl⟩ := exec_dpdEnc_next h
    refine ⟨State.answer_inp .., ?_⟩
    cases dpdEncode bcd <;> exact ⟨rfl, rfl, rfl, rfl, rfl, rfl⟩
  | dpdDec fmt =>
    obtain ⟨w, -, rfl⟩ := exec_dpdDec_next h
    exact ⟨rfl, rfl, rfl, rfl, rfl, rfl, rfl⟩
  | cfPack32 | cfPack64 | cfPack128 => exact packPorts_frame h
  | cfUnpack32 | cfUnpack64 | cfUnpack128 => exact unpackPorts_frame h
  | reservedPack | reservedUnpack =>
    obtain rfl := Host.Outcome.next.inj h
    exact ⟨rfl, rfl, rfl, rfl, rfl, rfl, rfl, rfl⟩

/-! ### The ports an instruction reads -/

/-- Which ports are driven, one by one; the other ports are read by one instruction each. -/
theorem driven_packPorts (inp : Inputs) :
    inp.driven .sign = inp.sign.isSome ∧ inp.driven .tag = inp.tag.isSome ∧
      inp.driven .bexp = inp.bexp.isSome ∧ inp.driven .lead = inp.lead.isSome :=
  ⟨rfl, rfl, rfl, rfl⟩

theorem packInstr_congr {F : Format} {a b : Inputs}
    (h : a.sign = b.sign ∧ a.tag = b.tag ∧
      (a.tag.map tagOfBits = some .finite → a.bexp = b.bexp ∧ a.lead = b.lead)) :
    requestOf (packInstr F) a = requestOf (packInstr F) b ∧
      firstUndriven (packInstr F) a = firstUndriven (packInstr F) b := by
  obtain ⟨hs, ht, hfinite⟩ := h
  simp only [requestOf_packInstr, packRequest, firstUndriven, portsRead_packInstr]
  by_cases hf : a.tag.map tagOfBits = some .finite
  · obtain ⟨hb, hl⟩ := hfinite hf
    rw [ht] at hf
    simp only [hs, ht, hb, hl, if_pos hf, List.find?_cons, List.find?_nil, driven_packPorts,
      and_self]
  · rw [ht] at hf
    simp only [hs, ht, if_neg hf, List.find?_cons, driven_packPorts, List.find?_nil, and_true]
    cases b.sign with
    | none => rfl
    | some sign =>
      cases htag : b.tag with
      | none => rfl
      | some tag =>
        cases hspecial : tagOfBits tag with
        | finite => exact absurd (by rw [htag, Option.map_some, hspecial]) hf
        | inf | qnan | snan => simp only [hspecial]

theorem unpackInstr_congr {F : Format} {a b : Inputs}
    (h : a.head.map (headOnly F) = b.head.map (headOnly F)) :
    requestOf (unpackInstr F) a = requestOf (unpackInstr F) b ∧
      firstUndriven (unpackInstr F) a = firstUndriven (unpackInstr F) b := by
  have hrequest := congrArg (Option.map (Request.cfUnpack F)) h
  have hdriven : a.driven .head = b.driven .head := by
    simpa [Inputs.driven] using congrArg Option.isSome h
  rw [Option.map_map, Option.map_map] at hrequest
  rw [requestOf_unpackInstr, requestOf_unpackInstr]
  refine ⟨hrequest, ?_⟩
  simp only [firstUndriven, portsRead_unpackInstr, List.find?_cons, hdriven, List.find?_nil]

/-- Ports that agree where the instruction reads make the same request, or lack the same port first. -/
theorem agreeOn_congr {i : Instr} {a b : Inputs} (h : Inputs.agreeOn i a b) :
    requestOf i a = requestOf i b ∧ firstUndriven i a = firstUndriven i b := by
  cases i with
  | dpdEnc fmt =>
    have h : a.bcd = b.bcd := h
    simp [requestOf, firstUndriven, portsRead, Inputs.driven, h]
  | dpdDec fmt =>
    have h : a.declet = b.declet := h
    simp [requestOf, firstUndriven, portsRead, Inputs.driven, h]
  | cfPack32 => exact packInstr_congr (F := .decimal32) h
  | cfPack64 => exact packInstr_congr (F := .decimal64) h
  | cfPack128 => exact packInstr_congr (F := .decimal128) h
  | cfUnpack32 => exact unpackInstr_congr (F := .decimal32) h
  | cfUnpack64 => exact unpackInstr_congr (F := .decimal64) h
  | cfUnpack128 => exact unpackInstr_congr (F := .decimal128) (congrArg _ h)
  | reservedPack | reservedUnpack => exact ⟨rfl, rfl⟩

/-- Settles O36: the request and the first undriven port are all that an instruction depends on. -/
theorem unreadPortsCannotMatter : Obligations.UnreadPortsCannotMatter := by
  intro i a b h
  obtain ⟨hrequest, hundriven⟩ := agreeOn_congr h
  constructor
  · intro t ha
    obtain ⟨r, hr, rfl⟩ := exec_next ha
    exact exec_of_request (hrequest ▸ hr)
  · intro p ha
    exact exec_of_undriven (hundriven ▸ exec_refused ha)

/-- The ports an instruction reads are all driven, or the first undriven one of them is not driven. -/
theorem firstUndriven_eq_none_iff (i : Instr) (inp : Inputs) :
    firstUndriven i inp = none ↔ ((portsRead i inp).all fun p => inp.driven p) = true := by
  simp [firstUndriven]

theorem not_driven_of_firstUndriven {i : Instr} {inp : Inputs} {p : InPort}
    (h : firstUndriven i inp = some p) : inp.driven p = false := by
  simpa using List.find?_some h

theorem step_of_undriven_cmd {s : State} (h : s.inp.cmd = none) :
    step s = .refused (.undriven .cmd) := by
  rw [step, h, readPort_none]

/-- Settles O37: by the first undriven port of the decoded command. -/
theorem refusedExactlyWhereAReadPortIsUndriven :
    Obligations.RefusedExactlyWhereAReadPortIsUndriven := by
  intro s
  cases hcmd : s.inp.cmd with
  | none =>
    refine ⟨fun hsafe => ?_, fun _ => ⟨.cmd, step_of_undriven_cmd hcmd, ?_⟩⟩
    · simp [Safe, hcmd] at hsafe
    · simp [Inputs.driven, hcmd]
  | some cmd =>
    rw [step_of_cmd s cmd hcmd, Safe, hcmd]
    simp only
    obtain ⟨r, -, -, hnone, hexec⟩ | ⟨p, -, hp, hexec⟩ := followsTypedView (decode cmd) s
    · refine ⟨fun _ => ⟨_, hexec⟩, fun hunsafe => ?_⟩
      rw [(firstUndriven_eq_none_iff ..).mp hnone] at hunsafe
      exact Bool.noConfusion hunsafe
    · refine ⟨fun hsafe => ?_, fun _ => ⟨p, hexec, not_driven_of_firstUndriven hp⟩⟩
      rw [(firstUndriven_eq_none_iff ..).mpr hsafe] at hp
      cases hp

/-! ### A step depends on the input ports alone -/

theorem exec_eq_of_inp (i : Instr) {a b : State} (h : a.inp = b.inp) : exec i a = exec i b := by
  obtain ⟨r, hr, -, -, ha⟩ | ⟨p, -, hp, ha⟩ := followsTypedView i a
  · rw [ha, exec_of_request (h ▸ hr), State.drive, State.drive, h]
  · rw [ha, exec_of_undriven (h ▸ hp)]

theorem step_eq_of_inp {a b : State} (h : a.inp = b.inp) : step a = step b := by
  simp only [step, h, exec_eq_of_inp _ h]

/-- Every step keeps the inputs that stand on the ports. -/
theorem step_next_inp {s t : State} (h : step s = .next t) : t.inp = s.inp := by
  obtain ⟨cmd, -, hexec⟩ := readPort_next h
  obtain ⟨r, -, rfl⟩ := exec_next hexec
  rfl

/-- Settles O39: the state after a step, and the state with other outputs, have the inputs of the state before. -/
theorem stepForgetsAndSettles : Obligations.StepForgetsAndSettles := by
  intro s t h
  exact ⟨(step_eq_of_inp (step_next_inp h)).trans h, fun o => (step_eq_of_inp rfl).trans h⟩

/-- Settles O40, by induction on the transactions: each presents its own inputs. -/
theorem runsAnswerTransactionByTransaction : Obligations.RunsAnswerTransactionByTransaction := by
  intro s s' is
  induction is generalizing s with
  | nil => rfl
  | cons i is ih =>
    rw [runTransactions, List.map_cons, ih,
      step_eq_of_inp (a := s.present i) (b := s'.present i) rfl]

/-! ### The command port, reset and the constants -/

/-- Settles O1: `step` reads the command port first. -/
theorem stepRunsTheDecodedCommand : Obligations.StepRunsTheDecodedCommand :=
  ⟨step_of_cmd, fun _ => step_of_undriven_cmd⟩

theorem commandOf_toNat (cmd : Cmd) : commandOf cmd.toNat = some cmd := by
  rw [commandOf_lt _ cmd.isLt, BitVec.ofNat_toNat, BitVec.setWidth_eq]

/-- Settles O2: the word of a command is that command's number. -/
theorem fetchWordIsTheNextCommand : Obligations.FetchWordIsTheNextCommand := by
  intro s cmd
  have hword : tableWord 8 cmd.toNat = cmd.toNat :=
    tableWord_of_lt 8 _ (cmd.isLt.trans (by decide))
  have hfetch : s.withFetchWord 8 cmd.toNat = { s with inp := { s.inp with cmd := some cmd } } := by
    rw [State.withFetchWord, hword, commandOf_toNat]
  refine ⟨?_, hfetch, ?_⟩
  · simp only [decodeTableWord, decodeNat, hword, commandOf_toNat]
  · rw [hfetch]
    exact step_of_cmd _ cmd rfl

/-- Settles O4: decoding undoes encoding, and each of the 16 commands comes back. -/
theorem decodeAndEncodeAgree : Obligations.DecodeAndEncodeAgree := by
  refine ⟨fun i _ => decode_encode i, fun cmd => ?_⟩
  revert cmd; decide

/-- Settles O5: such a number is no command. -/
theorem nonCommandsAreRejectedByName : Obligations.NonCommandsAreRejectedByName := by
  intro v hv
  simp only [decodeNat, commandOf_ge v hv]

/-- Settles O6: the transaction at reset is evaluated. -/
theorem resetOutputsAreSettledAndLegal : Obligations.ResetOutputsAreSettledAndLegal :=
  ⟨rfl, by decide, rfl⟩

/-- Settles O29: the two reserved rows of the command map, and what their instructions raise. -/
theorem reservedCommandsRaiseInvalidFormat : Obligations.ReservedCommandsRaiseInvalidFormat := by
  refine fun s => ⟨rfl, rfl, ?_⟩
  rintro (hcmd | hcmd)
  · exact step_of_cmd s _ hcmd
  · exact step_of_cmd s _ hcmd

/-- Settles O34: neither operation has a source of errors. -/
theorem decodingOperationsNeverFault : Obligations.DecodingOperationsNeverFault := by
  rintro i s t (⟨fmt, rfl⟩ | ⟨F, rfl⟩) h
  · obtain ⟨w, -, rfl⟩ := exec_dpdDec_next h
    rfl
  · exact unpackPorts_next_err (exec_unpackInstr F s ▸ h)

/-- Settles O42: each constant of the table is evaluated. -/
theorem formatConstantsAreConsistent : Obligations.FormatConstantsAreConsistent := by
  refine ⟨fun F => ?_, rfl, rfl, rfl, rfl, rfl, rfl, rfl⟩
  cases F <;> decide

end Sys2Proof.Machine

/-! PROOFS. Numbers glued of digits, and the three that the host glues: the encoding word of its head and declets, the word of its bytes, and a coefficient of its triads (20_memory.md rules R52, R53, 42_host_composition.md rule R189). -/

namespace Sys2Proof

/-! ### The widths of a format -/

theorem Format.ccb_eq (F : Format) : F.ccb = 10 * F.declets := by
  cases F <;> rfl

theorem Format.bits_eq (F : Format) : F.bits = F.headWidth + F.ccb := by
  cases F <;> rfl

theorem Format.headWidth_le (F : Format) : F.headWidth ≤ 18 := by
  cases F <;> decide

theorem Format.digits_eq (F : Format) : F.digits = 3 * F.declets + 1 := by
  cases F <;> rfl

theorem Format.one_le_digits (F : Format) : 1 ≤ F.digits := by
  cases F <;> decide

end Sys2Proof

namespace Sys2Proof.Machine

/-! ### Digits glued most significant first -/

/-- The number that digits in base `B` make below a leading part `a`. `joinWord_eq_glue`, `wordOfBytes_eq_glue` and `coefficientOf_eq_glue` tie it to the host's procedures. -/
def glue (B a : Nat) (ds : List Nat) : Nat := ds.foldl (fun n d => n * B + d) a

@[simp] theorem glue_nil (B a : Nat) : glue B a [] = a := rfl

@[simp] theorem glue_concat (B a : Nat) (ds : List Nat) (d : Nat) :
    glue B a (ds ++ [d]) = glue B a ds * B + d := by
  simp [glue]

theorem glue_lt {B a : Nat} {ds : List Nat} (hds : ∀ d ∈ ds, d < B) :
    glue B a ds < (a + 1) * B ^ ds.length := by
  induction ds using List.reverseRecOn with
  | nil => simp
  | append_singleton ds d ih =>
    have hd : d < B := hds d (by simp)
    have ih := ih fun d' hd' => hds d' (by simp [hd'])
    rw [glue_concat, List.length_append, List.length_singleton, pow_succ, ← Nat.mul_assoc]
    calc glue B a ds * B + d < (glue B a ds + 1) * B := by rw [Nat.add_one_mul]; omega
      _ ≤ (a + 1) * B ^ ds.length * B := Nat.mul_le_mul_right B ih

/-- The leading part stands above the digits. -/
theorem glue_div {B a : Nat} {ds : List Nat} (hds : ∀ d ∈ ds, d < B) :
    glue B a ds / B ^ ds.length = a := by
  induction ds using List.reverseRecOn with
  | nil => simp
  | append_singleton ds d ih =>
    have hd : d < B := hds d (by simp)
    have ih := ih fun d' hd' => hds d' (by simp [hd'])
    rw [glue_concat, List.length_append, List.length_singleton, pow_succ', ← Nat.div_div_eq_div_mul,
      Nat.mul_comm, Nat.mul_add_div (by omega), Nat.div_eq_of_lt hd, Nat.add_zero, ih]

/-- Each digit stands at its place. -/
theorem glue_digit {B a : Nat} {ds : List Nat} (hds : ∀ d ∈ ds, d < B) {t : Nat}
    (ht : t < ds.length) : glue B a ds / B ^ (ds.length - 1 - t) % B = ds[t] := by
  induction ds using List.reverseRecOn with
  | nil => exact absurd ht (Nat.not_lt_zero t)
  | append_singleton ds d ih =>
    have hd : d < B := hds d (by simp)
    have ih := ih fun d' hd' => hds d' (by simp [hd'])
    simp only [glue_concat, List.length_append, List.length_singleton, Nat.add_sub_cancel] at ht ⊢
    by_cases hlast : t = ds.length
    · subst hlast
      rw [Nat.sub_self, pow_zero, Nat.div_one, Nat.mul_comm, Nat.mul_add_mod, Nat.mod_eq_of_lt hd]
      simp
    · have hexp : ds.length - t = ds.length - 1 - t + 1 := by omega
      rw [hexp, pow_succ', ← Nat.div_div_eq_div_mul, Nat.mul_comm, Nat.mul_add_div (by omega),
        Nat.div_eq_of_lt hd, Nat.add_zero, ih (by omega), List.getElem_append_left]

/-- A number is glued of the digits cut out of it. -/
theorem glue_digits (B k n : Nat) :
    glue B (n / B ^ k) ((List.range k).map fun t => n / B ^ (k - 1 - t) % B) = n := by
  induction k generalizing n with
  | zero => simp
  | succ k ih =>
    have hinit : ((List.range k).map fun t => n / B ^ (k - t) % B) =
        (List.range k).map fun t => n / B / B ^ (k - 1 - t) % B := by
      refine List.map_congr_left fun t ht => ?_
      have hexp : k - t = k - 1 - t + 1 := by have := List.mem_range.mp ht; omega
      rw [hexp, pow_succ', Nat.div_div_eq_div_mul]
    rw [List.range_succ, List.map_append, List.map_singleton, glue_concat]
    simp only [Nat.add_sub_cancel, Nat.sub_self, pow_zero, Nat.div_one]
    rw [hinit, pow_succ', ← Nat.div_div_eq_div_mul, ih (n / B)]
    exact Nat.div_add_mod' n B

/-- A glued number as a sum over the places of its digits. -/
theorem glue_eq_sum (B a k : Nat) (f : Nat → Nat) :
    glue B a ((List.range k).map f) =
      a * B ^ k + ((List.range k).map fun t => f t * B ^ (k - 1 - t)).sum := by
  induction k with
  | zero => simp
  | succ k ih =>
    have hinit : ((List.range k).map fun t => f t * B ^ (k - t)) =
        (List.range k).map fun t => f t * B ^ (k - 1 - t) * B := by
      refine List.map_congr_left fun t ht => ?_
      have hexp : k - t = k - 1 - t + 1 := by have := List.mem_range.mp ht; omega
      rw [hexp, pow_succ, Nat.mul_assoc]
    rw [List.range_succ, List.map_append, List.map_append, List.map_singleton, List.map_singleton,
      glue_concat, ih, List.sum_append, List.sum_singleton]
    simp only [Nat.add_sub_cancel, Nat.sub_self, pow_zero, Nat.mul_one]
    rw [hinit, List.sum_map_mul_right, pow_succ]
    ring

theorem lt_of_mem_map_toNat {n : Nat} {ws : List (BitVec n)} :
    ∀ d ∈ ws.map BitVec.toNat, d < 2 ^ n := by
  intro d hd
  obtain ⟨w, -, rfl⟩ := List.mem_map.mp hd
  exact w.isLt

/-! ### The word of a head and its declets -/

theorem joinWord_eq_glue (h : Head) (ws : List Declet) :
    joinWord h ws = glue (2 ^ 10) h.toNat (ws.map BitVec.toNat) := by
  rw [joinWord, glue, List.foldl_map]

/-- The head stands above the declets. -/
theorem joinWord_div {F : Format} (h : Head) {ws : List Declet} (hlen : ws.length = F.declets) :
    joinWord h ws / 2 ^ F.ccb = h.toNat := by
  have hdiv := glue_div (a := h.toNat) (lt_of_mem_map_toNat (ws := ws))
  rwa [← joinWord_eq_glue, List.length_map, hlen, ← pow_mul, ← F.ccb_eq] at hdiv

theorem joinWord_lt {F : Format} {h : Head} {ws : List Declet} (hlt : h.toNat < 2 ^ F.headWidth)
    (hlen : ws.length = F.declets) : joinWord h ws < 2 ^ F.bits := by
  rw [F.bits_eq, pow_add, ← Nat.div_lt_iff_lt_mul (Nat.two_pow_pos _), joinWord_div h hlen]
  exact hlt

/-- Each declet stands at its place. -/
theorem joinWord_declet {F : Format} (h : Head) {ws : List Declet} (hlen : ws.length = F.declets)
    {t : Nat} (ht : t < ws.length) :
    joinWord h ws / 2 ^ (F.ccb - 10 - 10 * t) % 2 ^ 10 = ws[t].toNat := by
  have hdigit := glue_digit (a := h.toNat) (lt_of_mem_map_toNat (ws := ws))
    (t := t) (by rwa [List.length_map])
  have hexp : F.ccb - 10 - 10 * t = 10 * (F.declets - 1 - t) := by rw [F.ccb_eq]; omega
  simp only [← joinWord_eq_glue, List.length_map, List.getElem_map, hlen] at hdigit
  rwa [← pow_mul, ← hexp] at hdigit

theorem headOfWord_joinWord {F : Format} (h : Head) {ws : List Declet}
    (hlen : ws.length = F.declets) : headOfWord F (joinWord h ws) = h := by
  rw [headOfWord, joinWord_div h hlen, BitVec.ofNat_toNat, BitVec.setWidth_eq]

@[simp] theorem length_decletsOfWord (F : Format) (word : Nat) :
    (decletsOfWord F word).length = F.declets := by
  simp [decletsOfWord]

theorem decletsOfWord_joinWord {F : Format} (h : Head) {ws : List Declet}
    (hlen : ws.length = F.declets) : decletsOfWord F (joinWord h ws) = ws := by
  apply List.ext_getElem
  · rw [length_decletsOfWord, hlen]
  · intro t _ ht
    apply BitVec.eq_of_toNat_eq
    rw [← joinWord_declet h hlen ht]
    simp [decletsOfWord, decletOfWord]

theorem headOfWord_toNat {F : Format} {word : Nat} (hword : word < 2 ^ F.bits) :
    (headOfWord F word).toNat = word / 2 ^ F.ccb ∧ word / 2 ^ F.ccb < 2 ^ F.headWidth := by
  have hlt : word / 2 ^ F.ccb < 2 ^ F.headWidth := by
    rwa [Nat.div_lt_iff_lt_mul (Nat.two_pow_pos _), ← pow_add, ← F.bits_eq]
  refine ⟨?_, hlt⟩
  rw [headOfWord, BitVec.toNat_ofNat]
  exact Nat.mod_eq_of_lt (hlt.trans_le (Nat.pow_le_pow_right (by decide) F.headWidth_le))

/-- A word is glued of the head and the declets cut out of it. -/
theorem joinWord_fields {F : Format} {word : Nat} (hword : word < 2 ^ F.bits) :
    joinWord (headOfWord F word) (decletsOfWord F word) = word := by
  obtain ⟨hhead, -⟩ := headOfWord_toNat hword
  have hdeclets : (decletsOfWord F word).map BitVec.toNat =
      (List.range F.declets).map fun t => word / (2 ^ 10) ^ (F.declets - 1 - t) % 2 ^ 10 := by
    rw [decletsOfWord, List.map_map]
    refine List.map_congr_left fun t ht => ?_
    have hexp : F.ccb - 10 - 10 * t = 10 * (F.declets - 1 - t) := by rw [F.ccb_eq]; omega
    rw [Function.comp_apply, decletOfWord, BitVec.toNat_ofNat, hexp, pow_mul]
  rw [joinWord_eq_glue, hhead, hdeclets, F.ccb_eq, pow_mul, glue_digits]

/-! ### The word of a buffer -/

theorem wordOfBytes_eq_glue (buf : Buffer) :
    wordOfBytes buf = glue (2 ^ 8) 0 (buf.map BitVec.toNat) := by
  rw [wordOfBytes, glue, List.foldl_map]

theorem wordOfBytes_lt {F : Format} {buf : Buffer} (hlen : buf.length = F.bytes) :
    wordOfBytes buf < 2 ^ F.bits := by
  have hlt := glue_lt (a := 0) (lt_of_mem_map_toNat (ws := buf))
  rwa [← wordOfBytes_eq_glue, List.length_map, hlen, ← pow_mul, ← F.bits_eq_eight_mul_bytes,
    Nat.zero_add, Nat.one_mul] at hlt

@[simp] theorem length_bytesOfWord (F : Format) (word : Nat) :
    (bytesOfWord F word).length = F.bytes := by
  simp [bytesOfWord]

/-- A word is read back from the bytes written for it. -/
theorem wordOfBytes_bytesOfWord {F : Format} {word : Nat} (hword : word < 2 ^ F.bits) :
    wordOfBytes (bytesOfWord F word) = word := by
  have hbytes : (bytesOfWord F word).map BitVec.toNat =
      (List.range F.bytes).map fun i => word / (2 ^ 8) ^ (F.bytes - 1 - i) % 2 ^ 8 := by
    rw [bytesOfWord, List.map_map]
    refine List.map_congr_left fun i hi => ?_
    have hexp : F.bits - 8 - 8 * i = 8 * (F.bytes - 1 - i) := by
      rw [F.bits_eq_eight_mul_bytes]; omega
    rw [Function.comp_apply, BitVec.toNat_ofNat, hexp, pow_mul]
  have hzero : word / (2 ^ 8) ^ F.bytes = 0 := by
    rw [← pow_mul, ← F.bits_eq_eight_mul_bytes, Nat.div_eq_of_lt hword]
  rw [wordOfBytes_eq_glue, hbytes, ← hzero, glue_digits]

/-- Settles O47: each field by the place of its digits in the glued number. -/
theorem wordFieldsAreReadBack : Obligations.WordFieldsAreReadBack := by
  intro F h ws hlt hlen
  have hword := joinWord_lt hlt hlen
  refine ⟨hword, fun j _ => ?_, fun t w j hw hj => ?_, headOfWord_joinWord h hlen,
    decletsOfWord_joinWord h hlen, wordOfBytes_bytesOfWord hword⟩
  · rw [Nat.add_comm, ← Nat.testBit_div_two_pow, joinWord_div h hlen]
    rfl
  · obtain ⟨ht, rfl⟩ := List.getElem?_eq_some_iff.mp hw
    have hdeclet := joinWord_declet h hlen ht
    rw [BitVec.getLsbD, ← hdeclet, Nat.testBit_mod_two_pow, Nat.testBit_div_two_pow, Nat.add_comm]
    simp [hj]

/-- A buffer is the one written for a head and declets exactly where these are its fields. -/
theorem bytesOfWord_joinWord_eq_iff {F : Format} {h : Head} {ws : List Declet} {buf : Buffer}
    (hlt : h.toNat < 2 ^ F.headWidth) (hlen : ws.length = F.declets) (hbuf : buf.length = F.bytes) :
    bytesOfWord F (joinWord h ws) = buf ↔
      headOfWord F (wordOfBytes buf) = h ∧ decletsOfWord F (wordOfBytes buf) = ws := by
  constructor
  · rintro rfl
    rw [wordOfBytes_bytesOfWord (joinWord_lt hlt hlen)]
    exact ⟨headOfWord_joinWord h hlen, decletsOfWord_joinWord h hlen⟩
  · rintro ⟨rfl, rfl⟩
    rw [joinWord_fields (wordOfBytes_lt hbuf), bytesOfWord_wordOfBytes F buf hbuf]

/-! ### A coefficient and its triads -/

theorem coefficientOf_eq_glue (lead : Nat) (ts : List Triad) :
    coefficientOf lead ts = glue 1000 lead (ts.map triadValue) := by
  rw [coefficientOf, glue, List.foldl_map]

theorem digitAt_toNat (c i : Nat) : (digitAt c i).toNat = c / 10 ^ i % 10 := by
  rw [digitAt, BitVec.toNat_ofNat]
  omega

theorem triadValue_triadOf (d2 d1 d0 : Nibble) :
    triadValue (triadOf d2 d1 d0) = 100 * d2.toNat + 10 * d1.toNat + d0.toNat := by
  simp [triadValue]

theorem triadValue_lt {t : Triad} (ht : legalTriad t = true) : triadValue t < 1000 := by
  obtain ⟨h2, h1, h0⟩ := (legalTriad_iff_digits t).mp ht
  rw [triadValue]
  omega

/-- A legal triad is the three digits of its value. -/
theorem triadValue_inj {t t' : Triad} (ht : legalTriad t = true) (ht' : legalTriad t' = true)
    (h : triadValue t = triadValue t') : t = t' := by
  obtain ⟨h2, h1, h0⟩ := (legalTriad_iff_digits t).mp ht
  obtain ⟨h2', h1', h0'⟩ := (legalTriad_iff_digits t').mp ht'
  rw [triadValue, triadValue] at h
  have hdigit2 : digit2 t = digit2 t' := BitVec.eq_of_toNat_eq (by omega)
  have hdigit1 : digit1 t = digit1 t' := BitVec.eq_of_toNat_eq (by omega)
  have hdigit0 : digit0 t = digit0 t' := BitVec.eq_of_toNat_eq (by omega)
  rw [← triadOf_digits t, ← triadOf_digits t', hdigit2, hdigit1, hdigit0]

@[simp] theorem legalTriad_triadAt (F : Format) (c t : Nat) :
    legalTriad (triadAt F c t) = true := by
  rw [triadAt, legalTriad_triadOf]
  simp only [digitAt_toNat]
  omega

/-- A triad of a coefficient is three of its digits at their place. -/
theorem triadValue_triadAt {F : Format} (c : Nat) {t : Nat} (ht : t < F.declets) :
    triadValue (triadAt F c t) = c / 1000 ^ (F.declets - 1 - t) % 1000 := by
  have h2 : F.digits - 2 - 3 * t = 3 * (F.declets - 1 - t) + 2 := by rw [F.digits_eq]; omega
  have h1 : F.digits - 3 - 3 * t = 3 * (F.declets - 1 - t) + 1 := by rw [F.digits_eq]; omega
  have h0 : F.digits - 4 - 3 * t = 3 * (F.declets - 1 - t) := by rw [F.digits_eq]; omega
  have hdigits (n : Nat) : 100 * (n / 100 % 10) + 10 * (n / 10 % 10) + n % 10 = n % 1000 := by omega
  simp only [triadAt, triadValue_triadOf, digitAt_toNat, h2, h1, h0, pow_add, pow_mul,
    ← Nat.div_div_eq_div_mul]
  exact hdigits _

theorem length_triadsOf (F : Format) (c : Nat) : (triadsOf F c).length = F.declets := by
  simp [triadsOf]

theorem legalTriad_of_mem_triadsOf {F : Format} {c : Nat} :
    ∀ t ∈ triadsOf F c, legalTriad t = true := by
  intro t ht
  obtain ⟨n, -, rfl⟩ := List.mem_map.mp ht
  exact legalTriad_triadAt F c n

/-- The leading digit stands above the trailing triads. -/
theorem pow_digits_sub_one (F : Format) : 10 ^ (F.digits - 1) = 1000 ^ F.declets := by
  rw [F.digits_eq, Nat.add_sub_cancel, pow_mul]
  norm_num

theorem pow_digits (F : Format) : 10 ^ F.digits = 10 * 1000 ^ F.declets := by
  rw [F.digits_eq, pow_succ', pow_mul]
  norm_num

/-- A coefficient is made of its leading part and its triads. -/
theorem coefficientOf_triadsOf (F : Format) (c : Nat) :
    coefficientOf (c / 10 ^ (F.digits - 1)) (triadsOf F c) = c := by
  have hvalues : (triadsOf F c).map triadValue =
      (List.range F.declets).map fun t => c / 1000 ^ (F.declets - 1 - t) % 1000 := by
    rw [triadsOf, List.map_map]
    exact List.map_congr_left fun t ht => triadValue_triadAt c (List.mem_range.mp ht)
  rw [coefficientOf_eq_glue, hvalues, pow_digits_sub_one, glue_digits]

section
variable {F : Format} {ts : List Triad}

theorem lt_of_mem_map_triadValue (hlegal : ∀ t ∈ ts, legalTriad t = true) :
    ∀ v ∈ ts.map triadValue, v < 1000 := by
  intro v hv
  obtain ⟨t, ht, rfl⟩ := List.mem_map.mp hv
  exact triadValue_lt (hlegal t ht)

theorem coefficientOf_lt (lead : Nat) (hlegal : ∀ t ∈ ts, legalTriad t = true)
    (hlen : ts.length = F.declets) : coefficientOf lead ts < (lead + 1) * 1000 ^ F.declets := by
  have hlt := glue_lt (a := lead) (lt_of_mem_map_triadValue hlegal)
  rwa [← coefficientOf_eq_glue, List.length_map, hlen] at hlt

/-- The leading digit of a coefficient made of a digit and triads. -/
theorem coefficientOf_div (lead : Nat) (hlegal : ∀ t ∈ ts, legalTriad t = true)
    (hlen : ts.length = F.declets) : coefficientOf lead ts / 10 ^ (F.digits - 1) = lead := by
  have hdiv := glue_div (a := lead) (lt_of_mem_map_triadValue hlegal)
  rwa [← coefficientOf_eq_glue, List.length_map, hlen, ← pow_digits_sub_one] at hdiv

/-- The triads of a coefficient made of a leading part and triads are those triads. -/
theorem triadsOf_coefficientOf (lead : Nat) (hlegal : ∀ t ∈ ts, legalTriad t = true)
    (hlen : ts.length = F.declets) : triadsOf F (coefficientOf lead ts) = ts := by
  apply List.ext_getElem
  · rw [length_triadsOf, hlen]
  · intro t hF ht
    rw [length_triadsOf] at hF
    have hdigit := glue_digit (a := lead) (lt_of_mem_map_triadValue hlegal) (t := t)
      (by rwa [List.length_map])
    simp only [← coefficientOf_eq_glue, List.length_map, List.getElem_map, hlen] at hdigit
    rw [← triadValue_triadAt _ hF] at hdigit
    simp only [triadsOf, List.getElem_map, List.getElem_range]
    exact triadValue_inj (legalTriad_triadAt ..) (hlegal _ (List.getElem_mem ht)) hdigit

end

end Sys2Proof.Machine

/-! PROOFS. Rounding a coefficient to the digits of a format, half to even (42_host_composition.md rule R185). -/

namespace Sys2Proof.Machine

/-! ### The number of digits -/

theorem lt_pow_digitCountWithin {fuel c : Nat} (h : c ≤ fuel) :
    c < 10 ^ digitCountWithin fuel c := by
  induction fuel generalizing c with
  | zero => rw [Nat.le_zero.mp h]; decide
  | succ fuel ih =>
    unfold digitCountWithin
    split_ifs with hzero
    · rw [hzero]; decide
    · have hdiv := ih (c := c / 10) (by omega)
      rw [Nat.add_comm, pow_succ]
      omega

/-- A number has at most `n` digits exactly if it is below `10^n`. -/
theorem digitCount_le_iff (c n : Nat) : digitCount c ≤ n ↔ c < 10 ^ n :=
  ⟨fun h => (lt_pow_digitCountWithin le_rfl).trans_le (Nat.pow_le_pow_right (by decide) h),
    digitCountWithin_le c n c⟩

theorem digitCount_eq {c n : Nat} (hn : 1 ≤ n) (hlo : 10 ^ (n - 1) ≤ c) (hhi : c < 10 ^ n) :
    digitCount c = n := by
  have hle := (digitCount_le_iff c n).mpr hhi
  have hge := mt (digitCount_le_iff c (n - 1)).mp (Nat.not_lt.mpr hlo)
  omega

/-! ### Dropping digits -/

/-- `5 * 10^(k-1)` is half of `10^k`. -/
theorem two_mul_half_pow {k : Nat} (hk : 1 ≤ k) : 2 * (5 * 10 ^ (k - 1)) = 10 ^ k := by
  obtain ⟨k, rfl⟩ := Nat.exists_eq_add_of_le hk
  rw [Nat.add_sub_cancel_left, pow_add]
  omega

/-- Rule R185, half to even: the result is within half a unit of the last kept digit, and even where it is exactly half away. -/
theorem dropDigits_halfEven (c : Nat) {k : Nat} (hk : 1 ≤ k) :
    2 * c ≤ 2 * (dropDigits c k * 10 ^ k) + 10 ^ k ∧
      2 * (dropDigits c k * 10 ^ k) ≤ 2 * c + 10 ^ k ∧
      ((2 * c = 2 * (dropDigits c k * 10 ^ k) + 10 ^ k ∨
        2 * (dropDigits c k * 10 ^ k) = 2 * c + 10 ^ k) → dropDigits c k % 2 = 0) := by
  have hhalf := two_mul_half_pow hk
  have hc : c / 10 ^ k * 10 ^ k + c % 10 ^ k = c := Nat.div_add_mod' c (10 ^ k)
  have hr : c % 10 ^ k < 10 ^ k := Nat.mod_lt _ (by positivity)
  simp only [dropDigits]
  generalize c / 10 ^ k = q at hc ⊢
  split_ifs with hup
  · rw [Nat.add_one_mul q]
    omega
  · omega

/-- Where the digits kept are `n` at most, the rounding carries out of the top one exactly from half a unit below `10^n` on. -/
theorem dropDigits_carry {c k n : Nat} (hk : 1 ≤ k) (hn : 1 ≤ n) (hhi : c < 10 ^ (n + k)) :
    dropDigits c k ≤ 10 ^ n ∧
      (dropDigits c k = 10 ^ n ↔ 2 * 10 ^ (n + k) ≤ 2 * c + 10 ^ k) := by
  obtain ⟨hle, hge, htie⟩ := dropDigits_halfEven c hk
  have heven : 10 ^ n % 2 = 0 := Nat.even_iff.mp ((by decide : Even 10).pow_of_ne_zero (by omega))
  have hunit : 0 < 10 ^ k := by positivity
  rw [pow_add] at hhi ⊢
  generalize dropDigits c k = q at hle hge htie ⊢
  generalize 10 ^ n = top at heven hhi ⊢
  generalize 10 ^ k = unit at *
  have htop : q ≤ top := by
    by_contra hlt
    obtain ⟨m, rfl⟩ := Nat.exists_eq_add_of_lt (Nat.lt_of_not_le hlt)
    have hexpand : (top + m + 1) * unit = top * unit + m * unit + unit := by ring
    omega
  refine ⟨htop, fun h => h ▸ hge, fun hcarry => ?_⟩
  by_contra hne
  obtain ⟨m, rfl⟩ := Nat.exists_eq_add_of_lt (lt_of_le_of_ne htop hne)
  have hexpand : (q + m + 1) * unit = q * unit + m * unit + unit := by ring
  have hm : m * unit = 0 := by omega
  obtain rfl : m = 0 := (Nat.mul_eq_zero.mp hm).resolve_right (by omega)
  omega

/-- A coefficient of too many digits that does not carry keeps a top digit. -/
theorem le_dropDigits {c k n : Nat} (hlo : 10 ^ (n + k) ≤ c) : 10 ^ n ≤ dropDigits c k := by
  have hq : 10 ^ n ≤ c / 10 ^ k := by
    rwa [Nat.le_div_iff_mul_le (by positivity), ← pow_add]
  simp only [dropDigits]
  split_ifs <;> omega

theorem dropDigits_pow {n : Nat} (hn : 1 ≤ n) : dropDigits (10 ^ n) 1 = 10 ^ (n - 1) := by
  obtain ⟨n, rfl⟩ := Nat.exists_eq_add_of_le' hn
  simp [dropDigits, pow_succ]

/-! ### Rounding -/

/-- A coefficient the format can hold is left alone. -/
theorem roundCoefficient_of_lt {F : Format} {c : Nat} (exponent : Int) (hc : c < 10 ^ F.digits) :
    roundCoefficient F c exponent = (c, exponent) :=
  if_pos ((digitCount_le_iff c F.digits).mpr hc)

section
variable {F : Format} {c k : Nat} (exponent : Int) (hk : 1 ≤ k)
  (hlo : 10 ^ (F.digits + k - 1) ≤ c) (hhi : c < 10 ^ (F.digits + k))
include hk hlo hhi

/-- A coefficient of `DIG + k` digits drops `k` of them, and one more where that carries. -/
theorem roundCoefficient_of_wide :
    roundCoefficient F c exponent =
      if dropDigits c k = 10 ^ F.digits then (10 ^ (F.digits - 1), exponent + k + 1)
      else (dropDigits c k, exponent + k) := by
  have hcount := digitCount_eq (by omega) hlo hhi
  have hwide : ¬ F.digits + k ≤ F.digits := by omega
  simp only [roundCoefficient, hcount, Nat.add_sub_cancel_left, if_neg hwide]
  split_ifs with hcarry
  · rw [hcarry, dropDigits_pow F.one_le_digits]
  · rfl

theorem roundCoefficient_of_carry (hcarry : 2 * 10 ^ (F.digits + k) ≤ 2 * c + 10 ^ k) :
    roundCoefficient F c exponent = (10 ^ (F.digits - 1), exponent + k + 1) := by
  obtain ⟨-, hiff⟩ := dropDigits_carry hk F.one_le_digits hhi
  rw [roundCoefficient_of_wide exponent hk hlo hhi, if_pos (hiff.mpr hcarry)]

theorem roundCoefficient_of_no_carry (hcarry : 2 * c + 10 ^ k < 2 * 10 ^ (F.digits + k)) :
    roundCoefficient F c exponent = (dropDigits c k, exponent + k) ∧
      10 ^ (F.digits - 1) ≤ dropDigits c k ∧ dropDigits c k < 10 ^ F.digits := by
  obtain ⟨hle, hiff⟩ := dropDigits_carry hk F.one_le_digits hhi
  have hne : dropDigits c k ≠ 10 ^ F.digits := mt hiff.mp (Nat.not_le.mpr hcarry)
  have hone := F.one_le_digits
  have hlo' : 10 ^ (F.digits - 1 + k) ≤ c := by
    rwa [← Nat.sub_add_comm hone]
  refine ⟨?_, le_dropDigits hlo', lt_of_le_of_ne hle hne⟩
  rw [roundCoefficient_of_wide exponent hk hlo hhi, if_neg hne]

end

/-- Settles O45: half to even on the digits dropped, with the carry apart. -/
theorem roundingIsHalfEven : Obligations.RoundingIsHalfEven := by
  intro F c exponent
  refine ⟨roundCoefficient_of_lt exponent, fun k hk hlo hhi =>
    ⟨roundCoefficient_of_carry exponent hk hlo hhi, fun hcarry => ?_⟩⟩
  obtain ⟨hround, hkeep, hfit⟩ := roundCoefficient_of_no_carry exponent hk hlo hhi hcarry
  exact ⟨dropDigits c k, hround, hkeep, hfit, dropDigits_halfEven c hk⟩

/-- A rounded coefficient fits. -/
theorem roundCoefficient_lt (F : Format) (c : Nat) (exponent : Int) :
    (roundCoefficient F c exponent).1 < 10 ^ F.digits := by
  by_cases hc : c < 10 ^ F.digits
  · rwa [roundCoefficient_of_lt exponent hc]
  · have hcount := mt (digitCount_le_iff c F.digits).mp hc
    obtain ⟨k, hk⟩ := Nat.exists_eq_add_of_lt (Nat.lt_of_not_le hcount)
    have hlo : 10 ^ (F.digits + (k + 1) - 1) ≤ c := by
      by_contra hlt
      have := (digitCount_le_iff c _).mpr (Nat.lt_of_not_le hlt)
      omega
    have hhi : c < 10 ^ (F.digits + (k + 1)) := (digitCount_le_iff c _).mp (by omega)
    by_cases hcarry : 2 * 10 ^ (F.digits + (k + 1)) ≤ 2 * c + 10 ^ (k + 1)
    · rw [roundCoefficient_of_carry exponent (by omega) hlo hhi hcarry]
      exact Nat.pow_lt_pow_right (by decide) (by have := F.one_le_digits; omega)
    · obtain ⟨hround, -, hfit⟩ :=
        roundCoefficient_of_no_carry exponent (by omega) hlo hhi (Nat.lt_of_not_le hcarry)
      rwa [hround]

/-- Rounding a rounded coefficient changes nothing. -/
theorem roundCoefficient_roundCoefficient (F : Format) (c : Nat) (exponent : Int) :
    roundCoefficient F (roundCoefficient F c exponent).1 (roundCoefficient F c exponent).2 =
      roundCoefficient F c exponent :=
  roundCoefficient_of_lt _ (roundCoefficient_lt F c exponent)

end Sys2Proof.Machine

/-! PROOFS. The host's procedures: what each transaction answers, and the buffer that encoding a value the format can hold gives (42_host_composition.md rules R180, R182, R186 to R191). -/

namespace Sys2Proof.Machine

/-! ### Transactions -/

/-- A transaction whose command answers without an error gives its outputs. -/
theorem transact_of_exec {s : State} {i : Inputs} {cmd : Cmd} {o : Outputs}
    (hcmd : i.cmd = some cmd)
    (hexec : exec (decode cmd) (s.present i) = .next ((s.present i).drive o))
    (herr : o.err = 0) : transact s i = .ok o := by
  rw [transact, step_of_cmd (s.present i) cmd hcmd, hexec]
  simp [herr]

theorem transact_pack (s : State) {F : Format} {sign : BitVec 1} {tag : Tag} {bexp : BitVec 15}
    {lead : Nibble} {h : Head} (hpack : packHead F sign tag bexp lead = .ok h) :
    transact s (packInputs F sign tag bexp lead) = .ok (headOutputs h) := by
  refine transact_of_exec rfl ?_ rfl
  rw [decode_encode, exec_packInstr,
    packPorts_eq_packHead (sign := sign) (tag := bitsOfTag tag) (bexp := bexp) (lead := lead)
      rfl rfl rfl rfl, tagOfBits_bitsOfTag, hpack]
  rfl

theorem transact_unpack (s : State) (F : Format) (h : Head) :
    transact s (unpackInputs F h) = .ok (unpackHead F h).outputs := by
  refine transact_of_exec rfl ?_ rfl
  rw [decode_encode, exec_unpackInstr, unpackPorts_of_head F _ h rfl]

theorem transact_enc (s : State) {t : Triad} (ht : legalTriad t = true) :
    transact s (encInputs t) = .ok { Outputs.zero with declet := dpdTable t } := by
  refine transact_of_exec rfl ?_ rfl
  rw [decode_encode, exec_dpdEnc_of_legal 0 rfl ht]

theorem transact_dec (s : State) (w : Declet) :
    transact s (decInputs w) = .ok { Outputs.zero with bcd := dpdDecode w } := by
  refine transact_of_exec rfl ?_ rfl
  rw [decode_encode, exec_dpdDec_of_declet 0 _ w rfl]

theorem encodeTriads_of_legal (s : State) {ts : List Triad}
    (hlegal : ∀ t ∈ ts, legalTriad t = true) : encodeTriads s ts = .ok (ts.map dpdTable) := by
  induction ts with
  | nil => rfl
  | cons t ts ih =>
    rw [encodeTriads, transact_enc s (hlegal t (by simp)), ih fun t ht => hlegal t (by simp [ht])]
    rfl

theorem decodeDeclets_eq (s : State) (ws : List Declet) :
    decodeDeclets s ws = .ok (ws.map dpdDecode) := by
  induction ws with
  | nil => rfl
  | cons w ws ih =>
    rw [decodeDeclets, transact_dec, ih]
    rfl

/-! ### Encoding -/

/-- The buffer of a packed head and of triads that are all legal. -/
theorem encodeFields_eq (s : State) {F : Format} {sign : Sign} {tag : Tag} {be : Int}
    {lead : Nibble} {ts : List Triad} {h : Head}
    (hpack : packHead F sign.bit tag (BitVec.ofInt 15 be) lead = .ok h)
    (hlegal : ∀ t ∈ ts, legalTriad t = true) :
    encodeFields s F sign tag be lead ts = .ok (bytesOfWord F (joinWord h (ts.map dpdTable))) := by
  rw [encodeFields, transact_pack s hpack, encodeTriads_of_legal s hlegal]
  rfl

theorem encodeInfinity_eq (s : State) (F : Format) (sign : Sign) :
    encodeInfinity s F sign = .ok
      (bytesOfWord F (joinWord (packSpecial F sign.bit .inf) (List.replicate F.declets 0))) := by
  rw [encodeInfinity, transact_pack s (packHead_of_special F sign.bit 0 0 (by decide))]
  rfl

theorem le_maxPayload_iff (F : Format) (payload : Nat) :
    payload ≤ maxPayload F ↔ payload < 10 ^ (F.digits - 1) := by
  have hpos : 0 < 10 ^ (F.digits - 1) := by positivity
  rw [maxPayload]
  omega

theorem le_maxCoefficient_iff_lt (F : Format) (c : Nat) :
    c ≤ maxCoefficient F ↔ c < 10 ^ F.digits := by
  have hpos : 0 < 10 ^ F.digits := by positivity
  rw [maxCoefficient]
  omega

theorem encodeNaN_of_lt (s : State) {F : Format} {tag : Tag} (htag : tag ≠ .finite) (sign : Sign)
    {payload : Nat} (hpayload : payload < 10 ^ (F.digits - 1)) :
    encodeNaN s F tag sign payload = .ok (bytesOfWord F
      (joinWord (packSpecial F sign.bit tag) ((triadsOf F payload).map dpdTable))) := by
  rw [encodeNaN, if_neg (Nat.not_lt.mpr ((le_maxPayload_iff F payload).mpr hpayload))]
  exact encodeFields_eq s (packHead_of_special F sign.bit _ _ htag) legalTriad_of_mem_triadsOf

theorem encodeNaN_of_le (s : State) {F : Format} (tag : Tag) (sign : Sign) {payload : Nat}
    (hpayload : 10 ^ (F.digits - 1) ≤ payload) :
    encodeNaN s F tag sign payload = .error (.coefficientOverflow F payload) := by
  rw [encodeNaN, if_pos]
  exact Nat.lt_of_not_le (mt (le_maxPayload_iff F payload).mp (Nat.not_lt.mpr hpayload))

theorem exponentOutOfRange_eq_false_iff (F : Format) (be : Int) :
    exponentOutOfRange F be = false ↔ 0 ≤ be ∧ be ≤ (F.elimit : Int) := by
  rw [exponentOutOfRange, decide_eq_false_iff_not]
  omega

theorem encodeRounded_of_outOfRange (s : State) (F : Format) (policy : HostPolicy) (sign : Sign)
    {c : Nat} {exponent : Int} (hc : c < 10 ^ F.digits)
    (hrange : biasedExponent F exponent < 0 ∨ (F.elimit : Int) < biasedExponent F exponent) :
    encodeRounded s F policy sign c exponent =
      if saturates policy (biasedExponent F exponent) then encodeInfinity s F sign
      else .error (.exponentOverflow F (biasedExponent F exponent)) := by
  have hfits := Nat.not_lt.mpr ((le_maxCoefficient_iff_lt F c).mpr hc)
  have hout : exponentOutOfRange F (biasedExponent F exponent) = true := decide_eq_true hrange
  simp only [encodeRounded, if_neg hfits, if_pos hout]

/-- The buffer of a finite value in range. -/
theorem encodeValue_of_inRange (s : State) {F : Format} (policy : HostPolicy) (sign : Sign)
    {c be : Nat} (hc : c < 10 ^ F.digits) (hbe : be ≤ F.elimit) {h : Head}
    (hpack : packFinite F sign.bit (BitVec.ofNat 15 be) (digitAt c (F.digits - 1)) = .ok h) :
    encodeValue s F policy (.finite sign c ((be : Int) - F.bias)) =
      .ok (bytesOfWord F (joinWord h ((triadsOf F c).map dpdTable))) := by
  have hfits := Nat.not_lt.mpr ((le_maxCoefficient_iff_lt F c).mpr hc)
  have hbiased : biasedExponent F ((be : Int) - F.bias) = be := sub_add_cancel ..
  have hin : exponentOutOfRange F be = false :=
    (exponentOutOfRange_eq_false_iff F be).mpr ⟨Int.natCast_nonneg be, Int.ofNat_le.mpr hbe⟩
  simp only [encodeValue, roundCoefficient_of_lt _ hc, encodeRounded, if_neg hfits, hbiased, hin,
    Bool.false_eq_true, if_false]
  exact encodeFields_eq s (by rwa [BitVec.ofInt_natCast]) legalTriad_of_mem_triadsOf

/-- Encoding rounds first. -/
theorem encodeValue_rounded (s : State) (F : Format) (policy : HostPolicy) (v : Value) :
    encodeValue s F policy (v.rounded F) = encodeValue s F policy v := by
  cases v with
  | finite sign c exponent =>
    simp only [Value.rounded_finite, encodeValue, roundCoefficient_roundCoefficient]
  | infinity | quietNaN | signalingNaN => rfl

/-! ### Infinities, the policy and the host's errors -/

/-- Settles O48: the bytes of the one head each format has for an infinity of a sign. -/
theorem infinitiesEncodeToTheirFirstByte : Obligations.InfinitiesEncodeToTheirFirstByte := by
  intro s F sign
  rw [encodeInfinity_eq]
  cases F <;> cases sign <;> rfl

/-- Settles O51: the value of an infinite Decimal has the sign of its kind. -/
theorem infinityKindDecidesTheSign : Obligations.InfinityKindDecidesTheSign := by
  intro s F policy d
  constructor
  · intro hkind
    rw [encodeDecimal, Decimal.value, hkind]
    exact infinitiesEncodeToTheirFirstByte s F .positive
  · intro hkind
    rw [encodeDecimal, Decimal.value, hkind]
    exact infinitiesEncodeToTheirFirstByte s F .negative

/-- Settles O49: a rounded coefficient fits, so only the exponent decides, and then the policy. -/
theorem exponentOverflowFollowsThePolicy : Obligations.ExponentOverflowFollowsThePolicy := by
  intro s F sign c exponent be hbe hrange
  have hencode (policy : HostPolicy) : encodeValue s F policy (.finite sign c exponent) =
      if saturates policy be then encodeInfinity s F sign
      else .error (.exponentOverflow F be) := by
    rw [hbe] at hrange ⊢
    exact encodeRounded_of_outOfRange s F policy sign (roundCoefficient_lt F c exponent) hrange
  refine ⟨fun below => hencode _, fun below habove => ?_, fun hbelow => ⟨?_, ?_⟩⟩
  · rw [hencode, saturates, if_neg (by omega : ¬ be < 0)]
    rfl
  · rw [hencode, saturates, if_pos hbelow]
    rfl
  · rw [hencode, saturates, if_pos hbelow]
    rfl

/-- Settles O50: the two checks that come before any transaction. -/
theorem widePayloadsAndWrongLengthsAreReported :
    Obligations.WidePayloadsAndWrongLengthsAreReported :=
  ⟨fun s _ _ sign _ hpayload =>
    ⟨encodeNaN_of_le s .qnan sign hpayload, encodeNaN_of_le s .snan sign hpayload⟩,
    fun _ _ _ hlen => if_neg hlen⟩

end Sys2Proof.Machine

/-! PROOFS. Decoding a buffer: what the fields of its word decode to, as transactions and as numbers, and that the value fits the format (20_memory.md rule R53, 42_host_composition.md rules R182, R189, R192, R193). -/

namespace Sys2Proof.Machine

/-! ### The value of the decoded fields -/

/-- The triads a buffer's declets decode to. -/
def triadsOfBuffer (F : Format) (buf : Buffer) : List Triad :=
  (decletsOfWord F (wordOfBytes buf)).map dpdDecode

@[simp] theorem length_triadsOfBuffer (F : Format) (buf : Buffer) :
    (triadsOfBuffer F buf).length = F.declets := by
  simp [triadsOfBuffer]

theorem legalTriad_of_mem_triadsOfBuffer {F : Format} {buf : Buffer} :
    ∀ t ∈ triadsOfBuffer F buf, legalTriad t = true := by
  intro t ht
  obtain ⟨w, -, rfl⟩ := List.mem_map.mp ht
  exact legalTriad_dpdDecode w

/-- The head of a buffer. -/
abbrev headOfBuffer (F : Format) (buf : Buffer) : Head := headOfWord F (wordOfBytes buf)

/-- Decoding a buffer of the right length succeeds, with the value of its fields. -/
theorem decodeBuffer_eq (s : State) {F : Format} {buf : Buffer} (hlen : buf.length = F.bytes) :
    decodeBuffer s F buf = .ok (valueOfFields F (unpackHead F (headOfBuffer F buf)).outputs
      (triadsOfBuffer F buf)) := by
  simp only [decodeBuffer, if_pos hlen, transact_unpack, decodeDeclets_eq]
  rfl

theorem length_eq_of_decodeBuffer {s : State} {F : Format} {buf : Buffer} {v : Value}
    (h : decodeBuffer s F buf = .ok v) : buf.length = F.bytes := by
  by_contra hlen
  rw [decodeBuffer, if_neg hlen] at h
  cases h

section
variable {F : Format} {h : Head} {u : Unpacked} (ts : List Triad) (hu : unpackHead F h = u)
include hu

theorem valueOfFields_of_finite (htag : u.tag = .finite) :
    valueOfFields F (unpackHead F h).outputs ts =
      .finite (signOfBit u.sign) (coefficientOf u.lead.toNat ts) ((u.bexp : Int) - F.bias) := by
  have hbexp : (BitVec.ofNat 14 u.bexp).toNat = u.bexp := hu ▸ unpackHead_bexp_toNat F h
  rw [hu]
  simp only [valueOfFields, hbexp, Unpacked.outputs, tagOfBits_bitsOfTag, htag]

theorem valueOfFields_of_inf (htag : u.tag = .inf) :
    valueOfFields F (unpackHead F h).outputs ts = .infinity (signOfBit u.sign) := by
  rw [hu]
  simp only [valueOfFields, Unpacked.outputs, tagOfBits_bitsOfTag, htag]

theorem valueOfFields_of_qnan (htag : u.tag = .qnan) :
    valueOfFields F (unpackHead F h).outputs ts =
      .quietNaN (signOfBit u.sign) (coefficientOf 0 ts) := by
  rw [hu]
  simp only [valueOfFields, Unpacked.outputs, tagOfBits_bitsOfTag, htag]

theorem valueOfFields_of_snan (htag : u.tag = .snan) :
    valueOfFields F (unpackHead F h).outputs ts =
      .signalingNaN (signOfBit u.sign) (coefficientOf 0 ts) := by
  rw [hu]
  simp only [valueOfFields, Unpacked.outputs, tagOfBits_bitsOfTag, htag]

end

/-! ### The decoded value fits -/

theorem Value.fits_finite_iff (F : Format) (sign : Sign) (c : Nat) (exponent : Int) :
    (Value.finite sign c exponent).fits F = true ↔
      c < 10 ^ F.digits ∧ ∃ be : Nat, be ≤ F.elimit ∧ exponent = (be : Int) - F.bias := by
  simp only [Value.fits, Bool.and_eq_true, decide_eq_true_iff, le_maxCoefficient_iff_lt,
    Bool.not_eq_true', exponentOutOfRange_eq_false_iff, biasedExponent]
  refine and_congr_right fun _ => ⟨fun h => ⟨(exponent + F.bias).toNat, ?_, ?_⟩, ?_⟩
  · omega
  · omega
  · rintro ⟨be, hbe, rfl⟩
    omega

theorem Value.fits_quietNaN_iff (F : Format) (sign : Sign) (payload : Nat) :
    (Value.quietNaN sign payload).fits F = true ↔ payload < 10 ^ (F.digits - 1) := by
  simp only [Value.fits, decide_eq_true_iff, le_maxPayload_iff]

theorem Value.fits_signalingNaN_iff (F : Format) (sign : Sign) (payload : Nat) :
    (Value.signalingNaN sign payload).fits F = true ↔ payload < 10 ^ (F.digits - 1) := by
  simp only [Value.fits, decide_eq_true_iff, le_maxPayload_iff]

section
variable {F : Format} {ts : List Triad} (hlegal : ∀ t ∈ ts, legalTriad t = true)
  (hlen : ts.length = F.declets)
include hlegal hlen

theorem coefficientOf_digit_lt {lead : Nat} (hlead : lead ≤ 9) :
    coefficientOf lead ts < 10 ^ F.digits := by
  rw [pow_digits]
  exact (coefficientOf_lt lead hlegal hlen).trans_le (Nat.mul_le_mul_right _ (by omega))

theorem coefficientOf_zero_lt : coefficientOf 0 ts < 10 ^ (F.digits - 1) := by
  have hlt := coefficientOf_lt 0 hlegal hlen
  rwa [Nat.zero_add, Nat.one_mul, ← pow_digits_sub_one] at hlt

theorem valueOfFields_fits (h : Head) :
    (valueOfFields F (unpackHead F h).outputs ts).fits F = true := by
  obtain ⟨hbexp, hlead, -⟩ := unpackHead_inRange F h
  cases htag : (unpackHead F h).tag with
  | finite =>
    rw [valueOfFields_of_finite ts rfl htag, Value.fits_finite_iff]
    exact ⟨coefficientOf_digit_lt hlegal hlen hlead, _, hbexp, rfl⟩
  | inf => rw [valueOfFields_of_inf ts rfl htag]; rfl
  | qnan =>
    rw [valueOfFields_of_qnan ts rfl htag, Value.fits_quietNaN_iff]
    exact coefficientOf_zero_lt hlegal hlen
  | snan =>
    rw [valueOfFields_of_snan ts rfl htag, Value.fits_signalingNaN_iff]
    exact coefficientOf_zero_lt hlegal hlen

end

/-- Settles O53: the fields of a head are in range, and decoded triads are digits. -/
theorem everyBufferDecodes : Obligations.EveryBufferDecodes := fun s _ _ hlen =>
  ⟨_, decodeBuffer_eq s hlen, valueOfFields_fits legalTriad_of_mem_triadsOfBuffer
    (length_triadsOfBuffer ..) _⟩

/-! ### The value as numbers -/

/-- The decoding table on a declet is its arithmetic form. -/
theorem triadValue_dpdDecode (w : Declet) : triadValue (dpdDecode w) = decletValue w.toNat := by
  obtain ⟨d2, d1, d0, htriad, hnumbers⟩ := dpdDecode_eq_triadOf w
  rw [htriad, triadValue_triadOf, decletValue, hnumbers]

/-- The trailing digits of a buffer, as the sum over the declets at their places. -/
theorem coefficientOf_triadsOfBuffer (F : Format) (buf : Buffer) (lead : Nat) :
    coefficientOf lead (triadsOfBuffer F buf) =
      lead * 10 ^ (F.digits - 1) + trailingNumber F (wordOfBytes buf) := by
  have hvalues : (triadsOfBuffer F buf).map triadValue =
      (List.range F.declets).map fun t => decletValue (decletAt F (wordOfBytes buf) t) := by
    rw [triadsOfBuffer, decletsOfWord, List.map_map, List.map_map]
    refine List.map_congr_left fun t _ => ?_
    simp only [Function.comp_apply, triadValue_dpdDecode, decletOfWord, BitVec.toNat_ofNat]
    rfl
  have hplaces (k : Nat) : 1000 ^ k = 10 ^ (3 * k) := by rw [pow_mul]; norm_num
  rw [coefficientOf_eq_glue, hvalues, glue_eq_sum, pow_digits_sub_one, trailingNumber]
  simp only [hplaces]

/-- The fields of a buffer's head, read as numbers from its word. -/
theorem headOfBuffer_fields {F : Format} {buf : Buffer} (hlen : buf.length = F.bytes) :
    (headSign F (headOfBuffer F buf)).toNat = wordOfBytes buf / 2 ^ (F.bits - 1) % 2 ∧
      (headComb F (headOfBuffer F buf)).toNat = wordOfBytes buf / 2 ^ (F.ccb + F.ecb) % 32 ∧
      (headCont F (headOfBuffer F buf)).toNat = wordOfBytes buf / 2 ^ F.ccb % 2 ^ F.ecb := by
  obtain ⟨hhead, -⟩ := headOfWord_toNat (wordOfBytes_lt hlen)
  have hsign : F.bits - 1 = F.ccb + (F.headWidth - 1) := by cases F <;> rfl
  have hcomb : F.headWidth - 6 = F.ecb := by cases F <;> rfl
  rw [headSign_toNat, headComb_toNat, headCont_toNat, headOfBuffer, hhead, hsign, hcomb, pow_add,
    pow_add, Nat.div_div_eq_div_mul, Nat.div_div_eq_div_mul]
  exact ⟨rfl, rfl, rfl⟩

theorem signOfBit_eq (b : BitVec 1) :
    signOfBit b = if b.toNat = 0 then .positive else .negative := by
  revert b; decide

/-- Two exponent bits that are not both 1 and the continuation fit the exponent port. -/
theorem exponentPort_toNat (F : Format) {hi2 cont : Nat} (hhi : hi2 < 3)
    (hcont : cont < 2 ^ F.ecb) :
    (BitVec.ofNat 14 (hi2 * 2 ^ F.ecb + cont)).toNat = hi2 * 2 ^ F.ecb + cont := by
  rw [BitVec.toNat_ofNat]
  apply Nat.mod_eq_of_lt
  cases F <;> simp at * <;> omega

/-- Settles O58: the unpacker by the table of the 32 combination values, on the numbers the word holds. -/
theorem decodedValuesReadTheirFieldsInPlace : Obligations.DecodedValuesReadTheirFieldsInPlace := by
  intro s F buf hlen
  obtain ⟨hsign, hcomb, hcont⟩ := headOfBuffer_fields hlen
  have hcontlt : wordOfBytes buf / 2 ^ F.ccb % 2 ^ F.ecb < 2 ^ F.ecb :=
    Nat.mod_lt _ (Nat.two_pow_pos _)
  rw [decodeBuffer_eq s hlen, unpackHead_outputs, hcomb, hcont]
  simp only [reportedFields, valueOfWord, ← hsign, ← signOfBit_eq]
  generalize wordOfBytes buf / 2 ^ F.ccb % 2 ^ F.ecb = cont at *
  generalize wordOfBytes buf / 2 ^ (F.ccb + F.ecb) % 32 = comb at *
  have hvalue := coefficientOf_triadsOfBuffer F buf
  split_ifs with hsmall hlarge hinf hquiet
  · have hport := exponentPort_toNat F (hi2 := comb / 8) (by omega) hcontlt
    have hlead : (BitVec.ofNat 4 (comb % 8)).toNat = comb % 8 := Nat.mod_eq_of_lt (by omega)
    simp only [valueOfFields, hport, hlead, hvalue]
    rfl
  · have hport := exponentPort_toNat F (hi2 := (comb - 24) / 2) (by omega) hcontlt
    have hlead : (BitVec.ofNat 4 (8 + comb % 2)).toNat = 8 + comb % 2 := Nat.mod_eq_of_lt (by omega)
    simp only [valueOfFields, hport, hlead, hvalue]
    rfl
  · simp only [valueOfFields]
    rfl
  · simp only [valueOfFields, hvalue, Nat.zero_mul, Nat.zero_add]
    rfl
  · simp only [valueOfFields, hvalue, Nat.zero_mul, Nat.zero_add]
    rfl

end Sys2Proof.Machine

/-! PROOFS. Encoding and decoding whole formats: the round trip of values and of Decimals, where each field of a finite value stands, and which buffers come back (42_host_composition.md rules R180, R182, R192, R194). -/

namespace Sys2Proof.Machine

/-! ### Encode and decode -/

/-- The head and the declets that are written are the ones that are decoded. -/
theorem decodeBuffer_bytesOfWord (s : State) {F : Format} {h : Head} {ws : List Declet}
    (hlt : h.toNat < 2 ^ F.headWidth) (hlen : ws.length = F.declets) :
    decodeBuffer s F (bytesOfWord F (joinWord h ws)) =
      .ok (valueOfFields F (unpackHead F h).outputs (ws.map dpdDecode)) := by
  rw [decodeBuffer_eq s (length_bytesOfWord ..), headOfBuffer, triadsOfBuffer,
    wordOfBytes_bytesOfWord (joinWord_lt hlt hlen), headOfWord_joinWord h hlen,
    decletsOfWord_joinWord h hlen]

theorem map_dpdDecode_dpdTable {ts : List Triad} (hlegal : ∀ t ∈ ts, legalTriad t = true) :
    (ts.map dpdTable).map dpdDecode = ts := by
  rw [List.map_map]
  exact (List.map_congr_left fun t ht => dpdDecode_dpdTable (hlegal t ht)).trans (List.map_id ts)

theorem packSpecial_lt (F : Format) (sign : BitVec 1) (tag : Tag) :
    (packSpecial F sign tag).toNat < 2 ^ F.headWidth :=
  joinHead_lt ..

/-- The head a finite value in range packs to. -/
theorem packFinite_of_inRange (F : Format) (sign : BitVec 1) {be : Nat} {lead : Nibble}
    (hbe : be ≤ F.elimit) (hlead : lead.toNat ≤ 9) :
    packFinite F sign (BitVec.ofNat 15 be) lead = .ok
      (joinHead F sign (finiteComb ((BitVec.ofNat 15 be).extractLsb' F.ecb 2) lead)
        ((BitVec.ofNat 15 be).extractLsb' 0 F.ecb)) := by
  refine (packFinite_eq_ok_iff ..).mpr ⟨?_, hlead, rfl⟩
  rw [BitVec.toNat_ofNat]
  exact (Nat.mod_le ..).trans hbe

theorem digitAt_le_nine (c i : Nat) : (digitAt c i).toNat ≤ 9 := by
  rw [digitAt_toNat]
  omega

/-- The leading digit of a coefficient that fits. -/
theorem leadingDigit_toNat {F : Format} {c : Nat} (hc : c < 10 ^ F.digits) :
    (digitAt c (F.digits - 1)).toNat = c / 10 ^ (F.digits - 1) := by
  rw [digitAt_toNat]
  apply Nat.mod_eq_of_lt
  rwa [Nat.div_lt_iff_lt_mul (by positivity), pow_digits_sub_one, ← pow_digits]

theorem exponentPort_of_le {F : Format} {be : Nat} (hbe : be ≤ F.elimit) :
    (BitVec.ofNat 15 be).toNat = be :=
  Nat.mod_eq_of_lt (by have := elimit_le F; omega)

section
variable (s s' : State) {F : Format} (policy : HostPolicy) (sign : Sign)

theorem finite_roundTrip {c be : Nat} (hc : c < 10 ^ F.digits) (hbe : be ≤ F.elimit) :
    ∃ buf, encodeValue s F policy (.finite sign c ((be : Int) - F.bias)) = .ok buf ∧
      buf.length = F.bytes ∧
      decodeBuffer s' F buf = .ok (.finite sign c ((be : Int) - F.bias)) := by
  have hpack := packFinite_of_inRange F sign.bit hbe (digitAt_le_nine c (F.digits - 1))
  refine ⟨_, encodeValue_of_inRange s policy sign hc hbe hpack, length_bytesOfWord .., ?_⟩
  rw [decodeBuffer_bytesOfWord s' (joinHead_lt ..) (by rw [List.length_map, length_triadsOf]),
    map_dpdDecode_dpdTable legalTriad_of_mem_triadsOf,
    valueOfFields_of_finite _ (unpackHead_packFinite hpack) rfl, Sign.signOfBit_bit,
    leadingDigit_toNat hc, coefficientOf_triadsOf, exponentPort_of_le hbe]

theorem infinity_roundTrip :
    ∃ buf, encodeInfinity s F sign = .ok buf ∧ buf.length = F.bytes ∧
      decodeBuffer s' F buf = .ok (.infinity sign) := by
  refine ⟨_, encodeInfinity_eq s F sign, length_bytesOfWord .., ?_⟩
  rw [decodeBuffer_bytesOfWord s' (packSpecial_lt ..) List.length_replicate,
    valueOfFields_of_inf _ (unpackHead_packSpecial F sign.bit (by decide)) rfl, Sign.signOfBit_bit]

/-- A NaN's buffer, and the fields decoded from it. -/
theorem nan_roundTrip {tag : Tag} (htag : tag ≠ .finite) {payload : Nat}
    (hpayload : payload < 10 ^ (F.digits - 1)) :
    ∃ buf, encodeNaN s F tag sign payload = .ok buf ∧ buf.length = F.bytes ∧
      decodeBuffer s' F buf = .ok (valueOfFields F
        (unpackHead F (packSpecial F sign.bit tag)).outputs (triadsOf F payload)) := by
  refine ⟨_, encodeNaN_of_lt s htag sign hpayload, length_bytesOfWord .., ?_⟩
  rw [decodeBuffer_bytesOfWord s' (packSpecial_lt ..) (by rw [List.length_map, length_triadsOf]),
    map_dpdDecode_dpdTable legalTriad_of_mem_triadsOf]

theorem payload_triadsOf {payload : Nat} (hpayload : payload < 10 ^ (F.digits - 1)) :
    coefficientOf 0 (triadsOf F payload) = payload := by
  have hcoefficient := coefficientOf_triadsOf F payload
  rwa [Nat.div_eq_of_lt hpayload] at hcoefficient

/-- A value the format can hold encodes, and decodes to itself. -/
theorem value_roundTrip {v : Value} (hfits : v.fits F = true) :
    ∃ buf, encodeValue s F policy v = .ok buf ∧ buf.length = F.bytes ∧
      decodeBuffer s' F buf = .ok v := by
  cases v with
  | finite sign c exponent =>
    obtain ⟨hc, be, hbe, rfl⟩ := (Value.fits_finite_iff ..).mp hfits
    exact finite_roundTrip s s' policy sign hc hbe
  | infinity sign => exact infinity_roundTrip s s' sign
  | quietNaN sign payload =>
    have hpayload := (Value.fits_quietNaN_iff ..).mp hfits
    obtain ⟨buf, hencode, hlen, hdecode⟩ :=
      nan_roundTrip s s' sign (tag := .qnan) (by decide) hpayload
    refine ⟨buf, hencode, hlen, hdecode.trans (congrArg Except.ok ?_)⟩
    rw [valueOfFields_of_qnan _ (unpackHead_packSpecial F sign.bit (by decide)) rfl,
      Sign.signOfBit_bit, payload_triadsOf hpayload]
  | signalingNaN sign payload =>
    have hpayload := (Value.fits_signalingNaN_iff ..).mp hfits
    obtain ⟨buf, hencode, hlen, hdecode⟩ :=
      nan_roundTrip s s' sign (tag := .snan) (by decide) hpayload
    refine ⟨buf, hencode, hlen, hdecode.trans (congrArg Except.ok ?_)⟩
    rw [valueOfFields_of_snan _ (unpackHead_packSpecial F sign.bit (by decide)) rfl,
      Sign.signOfBit_bit, payload_triadsOf hpayload]

end

theorem Value.rounded_of_fits {F : Format} {v : Value} (hfits : v.fits F = true) :
    v.rounded F = v := by
  cases v with
  | finite sign c exponent =>
    obtain ⟨hc, -⟩ := (Value.fits_finite_iff ..).mp hfits
    rw [Value.rounded_finite, roundCoefficient_of_lt exponent hc]
  | infinity | quietNaN | signalingNaN => rfl

/-- Settles O52: encoding rounds first, and the rounded value comes back where it fits. -/
theorem wholeEncodingsRoundTrip : Obligations.WholeEncodingsRoundTrip := by
  intro s s' F policy v
  refine ⟨(encodeValue_rounded s F policy v).symm, Value.rounded_of_fits, fun hfits => ?_⟩
  rw [← encodeValue_rounded]
  exact value_roundTrip s s' policy hfits

/-! ### Decode and encode -/

@[simp] theorem bit_signOfBit (b : BitVec 1) : (signOfBit b).bit = b := by
  revert b; decide

section
variable (s : State) {F : Format} (policy : HostPolicy) {h : Head} {ts : List Triad}
  (hlt : h.toNat < 2 ^ F.headWidth) (hlegal : ∀ t ∈ ts, legalTriad t = true)
  (hlen : ts.length = F.declets)
include hlt

theorem packSpecial_eq_canonicalHead (hspecial : (unpackHead F h).tag ≠ .finite) :
    packSpecial F (unpackHead F h).sign (unpackHead F h).tag = canonicalHead F h := by
  have hpack := packHead_unpackHead hlt
  rw [packHead_of_special _ _ _ _ hspecial] at hpack
  exact Except.ok.inj hpack

include hlegal hlen

/-- Encoding decoded fields writes the canonical form of the head and of each declet; an infinity's declets are cleared. -/
theorem encodeValue_valueOfFields :
    encodeValue s F policy (valueOfFields F (unpackHead F h).outputs ts) =
      .ok (bytesOfWord F (joinWord (canonicalHead F h)
        (if (unpackHead F h).tag = .inf then List.replicate F.declets 0
         else ts.map dpdTable))) := by
  have hspecial := packSpecial_eq_canonicalHead hlt
  cases htag : (unpackHead F h).tag with
  | finite =>
    obtain ⟨hbexp, hlead, -⟩ := unpackHead_inRange F h
    have hdigit : digitAt (coefficientOf (unpackHead F h).lead.toNat ts) (F.digits - 1) =
        (unpackHead F h).lead := by
      apply BitVec.eq_of_toNat_eq
      rw [digitAt_toNat, coefficientOf_div _ hlegal hlen]
      omega
    have hpack := packHead_unpackHead hlt
    rw [htag] at hpack
    rw [valueOfFields_of_finite ts rfl htag, if_neg (by decide),
      encodeValue_of_inRange s policy _ (coefficientOf_digit_lt hlegal hlen hlead) hbexp
        (by rw [bit_signOfBit, hdigit]; exact hpack),
      triadsOf_coefficientOf _ hlegal hlen]
  | inf =>
    rw [htag] at hspecial
    rw [valueOfFields_of_inf ts rfl htag, if_pos rfl, encodeValue, encodeInfinity_eq, bit_signOfBit,
      hspecial (by decide)]
  | qnan =>
    rw [htag] at hspecial
    rw [valueOfFields_of_qnan ts rfl htag, if_neg (by decide), encodeValue,
      encodeNaN_of_lt s (by decide) _ (coefficientOf_zero_lt hlegal hlen), bit_signOfBit,
      hspecial (by decide), triadsOf_coefficientOf _ hlegal hlen]
  | snan =>
    rw [htag] at hspecial
    rw [valueOfFields_of_snan ts rfl htag, if_neg (by decide), encodeValue,
      encodeNaN_of_lt s (by decide) _ (coefficientOf_zero_lt hlegal hlen), bit_signOfBit,
      hspecial (by decide), triadsOf_coefficientOf _ hlegal hlen]

end

/-! ### Canonical buffers -/

theorem dpdTable_dpdDecode_eq_iff (w : Declet) :
    dpdTable (dpdDecode w) = w ↔ canonicalDeclet w = true := by
  rw [dpdTable_dpdDecode]
  split_ifs with hw
  · simp [hw]
  · simp [hw, and_0x0FF_ne_of_not_canonical (Bool.eq_false_iff.mpr hw)]

/-- Declets that decoding and encoding gives back. -/
theorem map_dpdTable_dpdDecode_eq_iff (ws : List Declet) :
    ws = (ws.map dpdDecode).map dpdTable ↔ ws.all canonicalDeclet = true := by
  rw [List.map_map, eq_comm, List.all_eq_true]
  have hmap := List.map_inj_left (l := ws) (f := dpdTable ∘ dpdDecode) (g := id)
  rw [List.map_id] at hmap
  simp only [hmap, Function.comp_apply, id_eq, dpdTable_dpdDecode_eq_iff]

/-- A number is unchanged by clearing its low part exactly if that part is 0. -/
theorem head_eq_cleared_iff (h : Head) (m : Nat) :
    h = BitVec.ofNat 18 (h.toNat / m * m) ↔ h.toNat % m = 0 := by
  have hdiv := Nat.div_add_mod' h.toNat m
  have hlt := h.isLt
  rw [← BitVec.toNat_inj, BitVec.toNat_ofNat, Nat.mod_eq_of_lt (by omega)]
  omega

theorem joinWord_zeros (F : Format) (h : Head) :
    joinWord h (List.replicate F.declets 0) = h.toNat * 2 ^ F.ccb := by
  have hzeros (k : Nat) : glue (2 ^ 10) h.toNat (List.replicate k 0) = h.toNat * 2 ^ (10 * k) := by
    induction k with
    | zero => simp
    | succ k ih => rw [List.replicate_succ', glue_concat, ih, Nat.mul_succ, pow_add]; ring
  rw [joinWord_eq_glue, List.map_replicate, F.ccb_eq]
  exact hzeros F.declets

/-- The declets of a word are all 0 exactly if its coefficient continuation is. -/
theorem decletsOfWord_eq_zeros_iff {F : Format} {word : Nat} (hword : word < 2 ^ F.bits) :
    decletsOfWord F word = List.replicate F.declets 0 ↔ word % 2 ^ F.ccb = 0 := by
  obtain ⟨hhead, -⟩ := headOfWord_toNat hword
  constructor
  · intro hzeros
    rw [← joinWord_fields hword, hzeros, joinWord_zeros, Nat.mul_mod_left]
  · intro hmod
    have hjoin : joinWord (headOfWord F word) (List.replicate F.declets 0) = word := by
      rw [joinWord_zeros, hhead, Nat.div_mul_cancel (Nat.dvd_of_mod_eq_zero hmod)]
    rw [← hjoin, decletsOfWord_joinWord _ List.length_replicate]

theorem canonicalHead_lt {F : Format} {h : Head} (hlt : h.toNat < 2 ^ F.headWidth) :
    (canonicalHead F h).toNat < 2 ^ F.headWidth :=
  packHead_lt (packHead_unpackHead hlt)

theorem zeros_canonical (k : Nat) : (List.replicate k (0 : Declet)).all canonicalDeclet = true := by
  rw [List.all_eq_true]
  intro w hw
  rw [List.eq_of_mem_replicate hw]
  decide

/-- An infinity has both its continuations 0 exactly if the word below its combination field is 0. -/
theorem continuations_eq_zero_iff (F : Format) (word : Nat) :
    word % 2 ^ (F.ccb + F.ecb) = 0 ↔ word / 2 ^ F.ccb % 2 ^ F.ecb = 0 ∧ word % 2 ^ F.ccb = 0 := by
  rw [pow_add, Nat.mod_mul, Nat.add_eq_zero_iff, Nat.mul_eq_zero, and_comm]
  simp only [(Nat.two_pow_pos F.ccb).ne', false_or]

/-- A buffer is canonical exactly if its head is, and its declets are the ones that are written back: 0 for an infinity, and else the canonical form of each. -/
theorem canonicalBuffer_iff {F : Format} {buf : Buffer} (hlen : buf.length = F.bytes) :
    canonicalBuffer F buf = true ↔
      headOfBuffer F buf = canonicalHead F (headOfBuffer F buf) ∧
        decletsOfWord F (wordOfBytes buf) =
          if (unpackHead F (headOfBuffer F buf)).tag = .inf then List.replicate F.declets 0
          else (triadsOfBuffer F buf).map dpdTable := by
  have hword := wordOfBytes_lt hlen
  have hdeclets := map_dpdTable_dpdDecode_eq_iff (decletsOfWord F (wordOfBytes buf))
  cases htag : (unpackHead F (headOfBuffer F buf)).tag with
  | finite =>
    rw [canonicalHead_of_finite htag, if_neg (by decide), triadsOfBuffer, hdeclets]
    simp [canonicalBuffer, htag]
  | inf =>
    obtain ⟨hhead, -⟩ := headOfWord_toNat hword
    have hzeros := decletsOfWord_eq_zeros_iff hword
    rw [canonicalHead_of_inf htag, if_pos rfl, head_eq_cleared_iff, hhead, hzeros,
      ← continuations_eq_zero_iff]
    simp only [canonicalBuffer, htag, Bool.and_eq_true, decide_eq_true_iff, and_iff_right_iff_imp]
    intro hzero
    obtain ⟨-, hcoefficient⟩ := (continuations_eq_zero_iff ..).mp hzero
    rw [hzeros.mpr hcoefficient]
    exact zeros_canonical _
  | qnan | snan =>
    rw [canonicalHead_of_nan (by simp [htag]) (by simp [htag]), if_neg (by decide),
      head_eq_cleared_iff, triadsOfBuffer, hdeclets]
    simp [canonicalBuffer, htag, and_comm]

/-- Settles O54: what is written back has the canonical form of each field, so it is the buffer exactly if the fields have it. -/
theorem reencodingKeepsExactlyTheCanonicalBuffers :
    Obligations.ReencodingKeepsExactlyTheCanonicalBuffers := by
  intro s s' F policy buf v hdecode
  have hlen := length_eq_of_decodeBuffer hdecode
  obtain ⟨hhead, hlt⟩ := headOfWord_toNat (wordOfBytes_lt hlen)
  have hlt : (headOfBuffer F buf).toNat < 2 ^ F.headWidth := hhead.trans_lt hlt
  obtain rfl := Except.ok.inj ((decodeBuffer_eq s hlen).symm.trans hdecode)
  rw [encodeValue_valueOfFields s' policy hlt legalTriad_of_mem_triadsOfBuffer
    (length_triadsOfBuffer ..), Except.ok.injEq, canonicalBuffer_iff hlen]
  refine bytesOfWord_joinWord_eq_iff (canonicalHead_lt hlt) ?_ hlen
  split_ifs <;> simp

/-! ### Decimals -/

theorem sign_decimal_valueOfFields (F : Format) (o : Outputs) (ts : List Triad) :
    ((valueOfFields F o ts).decimal F).sign = signOfBit o.sign := by
  simp only [valueOfFields]
  cases tagOfBits o.tag <;> rfl

theorem unpackHead_outputs_sign (F : Format) (h : Head) :
    (unpackHead F h).outputs.sign = headSign F h :=
  unpackHead_sign F h

/-- The kind of an infinity is set from its sign. -/
theorem sign_of_kind_decimal (F : Format) (v : Value) :
    ((v.decimal F).kind = .positiveInfinity → (v.decimal F).sign = .positive) ∧
      ((v.decimal F).kind = .negativeInfinity → (v.decimal F).sign = .negative) := by
  rcases v with _ | ⟨_ | _⟩ | _ | _ <;> simp [Value.decimal]

/-- Settles O55: the sign is the head's sign bit, which is the word's top bit. -/
theorem decodedDecimalsSetKindAndSign : Obligations.DecodedDecimalsSetKindAndSign := by
  intro s F buf hlen
  have hdecode := decodeBuffer_eq s hlen
  obtain ⟨hsign, -, -⟩ := headOfBuffer_fields hlen
  obtain ⟨hpositive, hnegative⟩ := sign_of_kind_decimal F (valueOfFields F
    (unpackHead F (headOfBuffer F buf)).outputs (triadsOfBuffer F buf))
  refine ⟨_, decodeDecimal_of_ok hdecode, by rw [Value.value_decimal, hdecode], ?_, hpositive,
    hnegative⟩
  rw [sign_decimal_valueOfFields, unpackHead_outputs_sign, signOfBit_eq, hsign,
    Nat.testBit_eq_decide_div_mod_eq]
  rcases Nat.mod_two_eq_zero_or_one (wordOfBytes buf / 2 ^ (F.bits - 1)) with hbit | hbit <;>
    simp [hbit]

/-- Settles O56: the value comes back, and the Decimal of a finite value is the Decimal it is of. -/
theorem decimalsRoundTrip : Obligations.DecimalsRoundTrip := by
  intro s s' F policy d hfits
  obtain ⟨buf, hencode, -, hdecode⟩ := value_roundTrip s s' policy hfits
  exact ⟨buf, d.value.decimal F, hencode, decodeDecimal_of_ok hdecode,
    Decimal.kind_decimal_value F d, Value.value_decimal F d.value,
    Decimal.decimal_value_of_finite F d⟩

/-! ### The bits a decode ignores -/

/-- An infinity reads nothing below its combination field. -/
theorem valueOfWord_of_inf {F : Format} {word : Nat}
    (hinf : word / 2 ^ (F.ccb + F.ecb) % 32 = 30) :
    valueOfWord F word =
      .infinity (if word / 2 ^ (F.ccb + F.ecb) / 2 ^ 5 % 2 = 0 then .positive else .negative) := by
  have hsign : word / 2 ^ (F.bits - 1) = word / 2 ^ (F.ccb + F.ecb) / 2 ^ 5 := by
    have hexp : F.bits - 1 = F.ccb + F.ecb + 5 := by cases F <;> rfl
    rw [hexp, pow_add, ← Nat.div_div_eq_div_mul]
  simp [valueOfWord, hinf, hsign]

/-- A NaN reads, below its combination field, the quiet/signaling bit and the number of its trailing digits. -/
theorem valueOfWord_of_nan {F : Format} {word : Nat}
    (hnan : word / 2 ^ (F.ccb + F.ecb) % 32 = 31) :
    valueOfWord F word =
      if word / 2 ^ (F.ccb + F.ecb - 1) % 2 = 0 then
        .quietNaN (if word / 2 ^ (F.ccb + F.ecb - 1) / 2 ^ 6 % 2 = 0 then .positive else .negative)
          (trailingNumber F word)
      else
        .signalingNaN
          (if word / 2 ^ (F.ccb + F.ecb - 1) / 2 ^ 6 % 2 = 0 then .positive else .negative)
          (trailingNumber F word) := by
  have hsign : word / 2 ^ (F.bits - 1) = word / 2 ^ (F.ccb + F.ecb - 1) / 2 ^ 6 := by
    have hexp : F.bits - 1 = F.ccb + F.ecb - 1 + 6 := by cases F <;> rfl
    rw [hexp, pow_add, ← Nat.div_div_eq_div_mul]
  have hquiet : 2 * (word / 2 ^ F.ccb % 2 ^ F.ecb) < 2 ^ F.ecb ↔
      word / 2 ^ (F.ccb + F.ecb - 1) % 2 = 0 := by
    cases F <;> simp <;> omega
  simp [valueOfWord, hnan, hsign, hquiet]

/-- Settles O59: a Decimal is a function of the value, and the value of the bits that are read. -/
theorem ignoredBitsCannotReachTheDecimal : Obligations.IgnoredBitsCannotReachTheDecimal := by
  intro s s' F buf buf' hlen hlen'
  have hcongr (h : decodeBuffer s F buf = decodeBuffer s' F buf') :
      decodeDecimal s F buf = decodeDecimal s' F buf' := by
    rw [decodeDecimal, decodeDecimal, h]
  have hdecode := decodedValuesReadTheirFieldsInPlace s F buf hlen
  have hdecode' := decodedValuesReadTheirFieldsInPlace s' F buf' hlen'
  refine ⟨fun htop hinf => hcongr ?_, fun htop hnan htail => hcongr ?_, hcongr⟩
  · rw [hdecode, hdecode', valueOfWord_of_inf hinf, valueOfWord_of_inf (htop ▸ hinf), htop]
  · have htop' : wordOfBytes buf / 2 ^ (F.ccb + F.ecb) =
        wordOfBytes buf' / 2 ^ (F.ccb + F.ecb) := by
      have hexp : F.ccb + F.ecb = F.ccb + F.ecb - 1 + 1 := by cases F <;> rfl
      rw [hexp, pow_succ, ← Nat.div_div_eq_div_mul, ← Nat.div_div_eq_div_mul, htop]
    rw [hdecode, hdecode', valueOfWord_of_nan hnan, valueOfWord_of_nan (htop' ▸ hnan), htop, htail]

/-! ### The fields of a finite value in the buffer -/

theorem finiteComb_toNat (hi2 : BitVec 2) {lead : Nibble} (hlead : lead.toNat ≤ 9) :
    (finiteComb hi2 lead).toNat = combNumber hi2.toNat lead.toNat := by
  revert hi2 lead; decide

/-- The slices of an exponent in range, as numbers. -/
theorem exponentSlices_toNat {F : Format} {be : Nat} (hbe : be ≤ F.elimit) :
    ((BitVec.ofNat 15 be).extractLsb' F.ecb 2).toNat = be / 2 ^ F.ecb ∧
      ((BitVec.ofNat 15 be).extractLsb' 0 F.ecb).toNat = be % 2 ^ F.ecb := by
  rw [BitVec.extractLsb'_toNat, BitVec.extractLsb'_toNat, exponentPort_of_le hbe,
    Nat.shiftRight_eq_div_pow, Nat.shiftRight_zero]
  refine ⟨Nat.mod_eq_of_lt ?_, rfl⟩
  cases F <;> simp at * <;> omega

/-- Each declet of a coefficient holds three of its digits, at its place. -/
theorem decletAt_joinWord_triadsOf {F : Format} (h : Head) (c : Nat) {t : Nat}
    (ht : t < F.declets) :
    decletAt F (joinWord h ((triadsOf F c).map dpdTable)) t =
      decletNumber (c / 10 ^ (F.digits - 2 - 3 * t) % 10) (c / 10 ^ (F.digits - 3 - 3 * t) % 10)
        (c / 10 ^ (F.digits - 4 - 3 * t) % 10) := by
  have hlen : ((triadsOf F c).map dpdTable).length = F.declets := by
    rw [List.length_map, length_triadsOf]
  have hdeclet := joinWord_declet h hlen (t := t) (by rwa [hlen])
  simp only [List.getElem_map, triadsOf, List.getElem_range, triadAt] at hdeclet
  rw [dpdTable_triadOf_toNat (digitAt_le_nine ..) (digitAt_le_nine ..) (digitAt_le_nine ..),
    digitAt_toNat, digitAt_toNat, digitAt_toNat] at hdeclet
  exact hdeclet

/-- Settles O57: the head and the declets stand at their places in the word, and the head's fields at theirs. -/
theorem finiteEncodingsHoldTheirFieldsInPlace :
    Obligations.FiniteEncodingsHoldTheirFieldsInPlace := by
  intro s F policy sign c be hc hbe
  have hpack := packFinite_of_inRange F sign.bit hbe (digitAt_le_nine c (F.digits - 1))
  have hlen : ((triadsOf F c).map dpdTable).length = F.declets := by
    rw [List.length_map, length_triadsOf]
  obtain ⟨hhi, hlo⟩ := exponentSlices_toNat hbe
  refine ⟨_, encodeValue_of_inRange s policy sign hc hbe hpack, length_bytesOfWord .., ?_⟩
  rw [wordOfBytes_bytesOfWord (joinWord_lt (joinHead_lt ..) hlen)]
  refine ⟨?_, ?_, ?_, fun t ht => ?_⟩
  · have hexp : F.bits - 1 = F.ccb + (F.ecb + 5) := by cases F <;> rfl
    rw [hexp, pow_add, ← Nat.div_div_eq_div_mul, joinWord_div _ hlen, pow_add,
      ← Nat.div_div_eq_div_mul, joinHead_sign]
    cases sign <;> rfl
  · rw [pow_add, ← Nat.div_div_eq_div_mul, joinWord_div _ hlen, joinHead_comb,
      finiteComb_toNat _ (digitAt_le_nine ..), hhi, leadingDigit_toNat hc]
  · rw [joinWord_div _ hlen, joinHead_cont, hlo]
  · exact decletAt_joinWord_triadsOf _ c ht

end Sys2Proof.Machine
